-- ==== Sys2Proof/Word.lean ====
section
/-! DEFINITION. The widths of the block: bytes, 32-bit words, 72-bit commands, 40-bit responses. -/

namespace Sys2Proof

/-- A stored byte and an entropy byte (00_scope.md section 5, fixed widths). -/
abbrev Byte := BitVec 8

/-- The sync word, the mask, the shift register, an operand field and the response data. -/
abbrev Word := BitVec 32

/-- A command word `CMD[71:0]` (30_encoding.md R63). -/
abbrev CmdWord := BitVec 72

/-- A response word `RSP[39:0]` (30_encoding.md R65). -/
abbrev RspWord := BitVec 40

end Sys2Proof
end

