-- ==== Sys2Proof/Config.lean ====
section
/-! DEFINITION. What is fixed at construction (00_scope.md R7 to R10), and the two free values. -/

namespace Sys2Proof

/-- The transform applied to a completed byte (R8). -/
inductive Xform where
  | reverse8
  | identity
deriving DecidableEq, Repr

/-- What answers an entropy draw (R10). -/
inductive EntropyMode where
  | external
  | stubZero
deriving DecidableEq, Repr

/-- The parameters of the block, constant for its life (10_state.md R43). -/
structure Config where
  /-- `CAPACITY`, the number of bytes in `storage` (R7). -/
  capacity    : Nat
  /-- `XFORM` (R8). -/
  xform       : Xform
  /-- `HAS_RNG` (R9). -/
  hasRng      : Bool
  /-- `ENTROPY_MODE` (R10). -/
  entropyMode : EntropyMode
deriving DecidableEq, Repr

namespace Config

/-- `CW`, the least number of bits that holds the value `CAPACITY` (R7), for `1 <= CAPACITY`. -/
def cursorWidth (c : Config) : Nat := Nat.log2 c.capacity + 1

/-- The configuration of `State.reset`: `XFORM` and `HAS_RNG` as R8 and R9 give them for this hardware;
`CAPACITY = 4` and `ENTROPY_MODE = EXTERNAL` are the model's choice among the values R7 and R10 leave open
(DESIGN CHOICE, unsafe, log 1 and log 3). No statement about all states rests on it. -/
def thisHardware : Config :=
  { capacity := 4, xform := .reverse8, hasRng := true, entropyMode := .external }

/-- The byte an external entropy source answers at draw number `n`, where `Source.pending` does not say:
any value, under no law (R18). DESIGN CHOICE of the form, safe, log 6. -/
opaque externalByte : Nat → Byte

/-- What a read of `storage[i]` gives where no such index exists, `i >= CAPACITY`: any value. No command makes such
a read from a state that meets the cursor invariant (20_memory.md R48). DESIGN CHOICE of the form, safe, log 7. -/
opaque absentByte : Nat → Byte

end Config

end Sys2Proof
end

