-- ==== Sys2Proof/Syntax.lean ====
section
/-! DEFINITION. The eight commands (30_encoding.md R68) and the pseudo-instruction FEED (R77), as syntax. -/

namespace Sys2Proof

/-- A command with its decoded operands (R69 to R71): ignored bits are not part of it (R74). Lengths are natural
numbers and RNG operands integers, so that comparisons are exact (DESIGN CHOICE, safe, log 11). -/
inductive Instr where
  /-- CFGSYNC: `value` unsigned and unmasked, `length` an unsigned 32-bit number (R69, R81). -/
  | cfgsync (value : Word) (length : Nat)
  /-- DROPSYNC (R85). -/
  | dropsync
  /-- INGEST (R70, R87). -/
  | ingest (bit : Bool)
  /-- AVAIL (R98). -/
  | avail
  /-- CONSUME (R70, R99). -/
  | consume (dropSyncAfter : Bool)
  /-- RANDMAX: a signed 32-bit `max` (R71, R103). -/
  | randmax (max : Int)
  /-- RANDRANGE: signed 32-bit `min` and `max` (R71, R106). -/
  | randrange (min : Int) (max : Int)
  /-- RANDBYTE (R108). -/
  | randbyte
deriving DecidableEq, Repr

/-- `FEED v, n` (R77): it stands for `n` INGEST commands and is not a command itself. -/
structure Feed where
  v : Word
  n : Nat
deriving DecidableEq, Repr

end Sys2Proof
end

