-- ==== Sys2Proof/WellFormed.lean ====
section
/-! DEFINITION. Which commands, configurations and FEED lines the spec admits. -/

namespace Sys2Proof

/-- The range of a signed 32-bit integer (00_scope.md R15). -/
def inS32 (i : Int) : Bool := decide (-2147483648 ≤ i) && decide (i ≤ 2147483647)

/-- A command whose operands the encoding can hold (30_encoding.md R69 to R71). -/
def Instr.wf : Instr → Bool
  | .cfgsync _ length => decide (length < 4294967296)
  | .dropsync => true
  | .ingest _ => true
  | .avail => true
  | .consume _ => true
  | .randmax max => inS32 max
  | .randrange min max => inS32 min && inS32 max
  | .randbyte => true

/-- `1 <= CAPACITY <= 2^32 - 1` (00_scope.md R7). -/
def Config.wf (c : Config) : Bool := decide (1 ≤ c.capacity) && decide (c.capacity ≤ 4294967295)

/-- `1 <= n <= 32` and `v` has at most `n` bits (30_encoding.md R77). -/
def Feed.wf (f : Feed) : Bool := decide (1 ≤ f.n) && decide (f.n ≤ 32) && decide (f.v.toNat < 2 ^ f.n)

end Sys2Proof
end

