-- ==== Sys2Proof/Decode.lean ====
section
/-! DEFINITION. Decoding of a 72-bit command word, total (30_encoding.md R75), and the encoder after it. -/

namespace Sys2Proof

/-- `s32(v)`, the signed reading of a 32-bit value (00_scope.md R15). -/
def s32 (v : Word) : Int :=
  if v.getLsbD 31 then (v.toNat : Int) - 4294967296 else (v.toNat : Int)

/-- `u32(i) = i mod 2^32` (00_scope.md R15). -/
def u32 (i : Int) : Word := BitVec.ofInt 32 i

/-- What a command word is: one of the eight commands, or a word with a reserved opcode (R72, R75). -/
inductive Decoded where
  | command (i : Instr)
  | reserved (op : BitVec 8)
deriving DecidableEq, Repr

/-- `op = CMD[71:64]` (R64). -/
def opField (w : CmdWord) : BitVec 8 := w.extractLsb' 64 8

/-- `a = CMD[63:32]` (R64). -/
def aField (w : CmdWord) : Word := w.extractLsb' 32 32

/-- `b = CMD[31:0]` (R64). -/
def bField (w : CmdWord) : Word := w.extractLsb' 0 32

/-- The opcode map (R68), with the operands as R69 to R71 read them; any other opcode is reserved (R72). -/
def decode (w : CmdWord) : Decoded :=
  match (opField w).toNat with
  | 0x01 => .command (.cfgsync (aField w) (bField w).toNat)
  | 0x02 => .command .dropsync
  | 0x03 => .command (.ingest ((bField w).getLsbD 0))
  | 0x04 => .command .avail
  | 0x05 => .command (.consume ((bField w).getLsbD 0))
  | 0x10 => .command (.randmax (s32 (bField w)))
  | 0x11 => .command (.randrange (s32 (aField w)) (s32 (bField w)))
  | 0x12 => .command .randbyte
  | _ => .reserved (opField w)

/-- The command word whose bits, numbered as the opcode table numbers them, are `w`.
The table numbers the whole 72-bit word with bit 0 its least significant bit, and the word is a value, not a
sequence of bytes (R68, R80; log 10). -/
def tableWord (w : Nat) : CmdWord := BitVec.ofNat 72 w

/-- What the decoder reads from an opcode-table row's word; `none` for a reserved word. Bits above the row's
width are 0 in `w` already. -/
def decodeTableWord (_nbits w : Nat) : Option Instr :=
  match decode (tableWord w) with
  | .command i => some i
  | .reserved _ => none

/-- The opcode of a command (R68). -/
def Instr.opcode : Instr → BitVec 8
  | .cfgsync _ _ => 0x01#8
  | .dropsync => 0x02#8
  | .ingest _ => 0x03#8
  | .avail => 0x04#8
  | .consume _ => 0x05#8
  | .randmax _ => 0x10#8
  | .randrange _ _ => 0x11#8
  | .randbyte => 0x12#8

/-- Field `a` as the assembler writes it: zeros where it is ignored (R76). -/
def Instr.operandA : Instr → Word
  | .cfgsync value _ => value
  | .dropsync => 0#32
  | .ingest _ => 0#32
  | .avail => 0#32
  | .consume _ => 0#32
  | .randmax _ => 0#32
  | .randrange min _ => u32 min
  | .randbyte => 0#32

/-- Field `b` as the assembler writes it: zeros where it is ignored (R76). -/
def Instr.operandB : Instr → Word
  | .cfgsync _ length => BitVec.ofNat 32 length
  | .dropsync => 0#32
  | .ingest bit => (BitVec.ofBool bit).setWidth 32
  | .avail => 0#32
  | .consume dropSyncAfter => (BitVec.ofBool dropSyncAfter).setWidth 32
  | .randmax max => u32 max
  | .randrange _ max => u32 max
  | .randbyte => 0#32

/-- A command word from its three fields, `op` in the high bits (R64). -/
def packFields (op : BitVec 8) (a b : Word) : CmdWord := op ++ a ++ b

/-- The command word of a well-formed command (R64, R68, R76). -/
def encode (i : Instr) : CmdWord := packFields i.opcode i.operandA i.operandB

/-- The bits of the command word that the command reads: its opcode and the operand bits R69 to R71 name; all
others are ignored (R74). -/
def Instr.usedBits : Instr → CmdWord
  | .cfgsync _ _ => 0xFFFFFFFFFFFFFFFFFF#72
  | .dropsync => 0xFF0000000000000000#72
  | .ingest _ => 0xFF0000000000000001#72
  | .avail => 0xFF0000000000000000#72
  | .consume _ => 0xFF0000000000000001#72
  | .randmax _ => 0xFF00000000FFFFFFFF#72
  | .randrange _ _ => 0xFFFFFFFFFFFFFFFFFF#72
  | .randbyte => 0xFF0000000000000000#72

/-- A command in the assembler's form (R76), numerals in decimal. -/
def Instr.asm : Instr → String
  | .cfgsync value length => "CFGSYNC " ++ toString value.toNat ++ ", " ++ toString length
  | .dropsync => "DROPSYNC"
  | .ingest bit => "INGEST " ++ toString bit.toNat
  | .avail => "AVAIL"
  | .consume dropSyncAfter => "CONSUME " ++ toString dropSyncAfter.toNat
  | .randmax max => "RANDMAX " ++ toString max
  | .randrange min max => "RANDRANGE " ++ toString min ++ ", " ++ toString max
  | .randbyte => "RANDBYTE"

/-- The low `n` bits of `v`, most significant first: the order in which FEED sends them (R77). -/
def bitsMsbFirst (v : Word) : Nat → List Bool
  | 0 => []
  | n + 1 => v.getLsbD n :: bitsMsbFirst v n

/-- `FEED v, n` written out as its `n` INGEST commands (R77). -/
def Feed.expand (f : Feed) : List Instr := (bitsMsbFirst f.v f.n).map Instr.ingest

end Sys2Proof
end

