-- ==== Sys2Proof/Machine/State.lean ====
section
/-! DEFINITION. The state: the nine fields of 10_state.md R20 in `Block`, the configuration, and the block's
surroundings (the commands still to come, the response port, the entropy source) as plain data. -/

namespace Sys2Proof.Machine

/-- The five statuses (30_encoding.md R66). -/
inductive Status where
  | ok
  | unsupported
  | invalidSyncWord
  | bufferEmpty
  | overflow
deriving DecidableEq, Repr

/-- A response: status and 32-bit data (R65). -/
structure Response where
  st : Status
  d  : Word
deriving DecidableEq, Repr

/-- The byte store, as the cells that differ from what an unlisted index reads as, at rising indices
(20_memory.md R45). -/
abbrev Memory := List Host.Cell

/-- The whole state of the block, the nine fields of 10_state.md R20. The two byte cursors are natural numbers, of
which `CW` bits suffice (R7, R35; DESIGN CHOICE, safe, log 8). -/
structure Block where
  /-- The pattern the comparator looks for (R22). -/
  syncWord      : Word
  /-- The mask on the shift register (R23). -/
  syncMask      : Word
  /-- How many low bits take part in the comparison, 0 to 32 (R24). -/
  syncLength    : BitVec 6
  /-- The window of the newest bits while seeking (R25). -/
  shiftRegister : Word
  /-- `false` seeking, `true` packing (R27). -/
  acquired      : Bool
  /-- The byte store (R28). -/
  storage       : Memory
  /-- Index of the byte being assembled (R29). -/
  writeCursor   : Nat
  /-- Index of the next byte to consume (R30). -/
  readCursor    : Nat
  /-- Bit position in the byte being assembled, 0 to 7 (R31). -/
  bitCursor     : Fin 8
deriving DecidableEq, Repr

/-- The entropy source as the block meets it (00_scope.md R18): the bytes it will answer next, and how many it
has answered, which numbers the free value used once `pending` is empty (log 6). Not state of the block
(10_state.md R41). -/
structure Source where
  pending : List Byte
  drawn   : Nat
deriving DecidableEq, Repr

/-- The senders of commands (00_scope.md R5). The block does not check who sent a command. -/
inductive Agent where
  | producer
  | consumer
  | controller
  | rngClient
deriving DecidableEq, Repr

/-- One event of the command order (00_scope.md R4; 70_reset_and_hazards.md R131). -/
inductive Event where
  | command (sender : Agent) (word : CmdWord)
  | reset
deriving DecidableEq, Repr

/-- The machine: the block and its surroundings. -/
structure State where
  /-- The parameters; no step changes them (10_state.md R43; log 3). -/
  cfg    : Config
  /-- The nine fields of the spec (R20). -/
  block  : Block
  /-- The command order still to come, next event first (00_scope.md R4, R6; log 4). The model's own field. -/
  inputs : List Event
  /-- Who sent the command performed last (log 5). The model's own field. -/
  sender : Option Agent
  /-- The response that command gave; `none` when the last event was a RESET or none has happened
  (30_encoding.md R65; 70_reset_and_hazards.md R131; log 5). The model's own field. -/
  rsp    : Option Response
  /-- The entropy source (00_scope.md R18; log 6). The model's own field. -/
  source : Source
deriving DecidableEq, Repr

/-- Why the machine stops: never. The block has no fault outcome in any state, so this type has no constructor
(60_exceptions.md R113). -/
inductive Fault
deriving DecidableEq, Repr

/-- Why a command has no meaning. -/
inductive Refusal where
  /-- The command has no meaning in the model yet. Raised by nothing: every command has its meaning. Safe. -/
  | notModelled (mnemonic : String)
deriving DecidableEq, Repr

/-- The nine fields after RESET, `storage` as it was (10_state.md R42; 70_reset_and_hazards.md R133). -/
def Block.afterReset (storage : Memory) : Block :=
  { syncWord := 0x00000000#32
    syncMask := 0x00000000#32
    syncLength := 0#6
    shiftRegister := 0x00000000#32
    acquired := true
    storage := storage
    writeCursor := 0
    readCursor := 0
    bitCursor := 0 }

/-- The block with configuration `cfg` and power-up store `storage`, after its first RESET, nothing sent yet. -/
def State.powerUp (cfg : Config) (storage : Memory) : State :=
  { cfg := cfg
    block := Block.afterReset storage
    inputs := []
    sender := none
    rsp := none
    source := { pending := [], drawn := 0 } }

/-- The machine right after reset: the values of 10_state.md R42. The store lists nothing (log 2), the
configuration is `Config.thisHardware` (log 1, log 3). -/
def State.reset : State := State.powerUp Config.thisHardware []

end Sys2Proof.Machine
end

