-- ==== Sys2Proof/Machine/Operands.lean ====
section
/-! DEFINITION. The primitives of 00_scope.md section 7 on words, bytes and signed integers. -/

namespace Sys2Proof.Machine

/-- `LowMask(n) = 2^n - 1` (R11), for `n <= 32`. -/
def lowMask (n : Nat) : Word := BitVec.ofNat 32 (2 ^ n - 1)

/-- `ShiftIn(sr, bit) = ((sr << 1) | bit) mod 2^32` (R12). -/
def shiftIn (sr : Word) (bit : Bool) : Word := (sr <<< 1) ||| (BitVec.ofBool bit).setWidth 32

/-- `Reverse8(v)`: bit `i` of the result is bit `7 - i` of `v` (R13). -/
def reverse8 (v : Byte) : Byte := BitVec.ofFnLE fun i : Fin 8 => v.getLsbD (7 - i.val)

/-- `Xform(v)` (R14). -/
def xformByte : Xform → Byte → Byte
  | .reverse8, v => reverse8 v
  | .identity, v => v

/-- `GuardedAbs(i)` (R16). -/
def guardedAbs (i : Int) : Int :=
  if i = -2147483648 then 2147483647 else if i < 0 then -i else i

/-- `Wrap32(i) = s32(i mod 2^32)` (R17). -/
def wrap32 (i : Int) : Int := s32 (u32 i)

/-- `TruncRem(a, m) = a - m * q`, `q` the quotient rounded toward zero (R19). -/
def truncRem (a m : Int) : Int := a - m * a.tdiv m

/-- Set or clear bit `k` of a byte, the other seven as they are (41_bit_ingest.md R90). -/
def putBit (old : Byte) (k : Fin 8) (bit : Bool) : Byte :=
  if bit then old ||| (1#8 <<< k.val) else old &&& ~~~(1#8 <<< k.val)

/-- The 32-bit value of four bytes, the first in bits 31 to 24 (43_rng.md R104; 20_memory.md R52). -/
def bigEndian (e0 e1 e2 e3 : Byte) : Word := e0 ++ e1 ++ e2 ++ e3

end Sys2Proof.Machine
end

