-- ==== Sys2Proof/Machine/Flags.lean ====
section
/-! DEFINITION. The one status flag, `acquired` (10_state.md R27): every place that sets, clears or computes it. -/

namespace Sys2Proof.Machine

/-- The masked comparison `(shiftRegister & syncMask) == syncWord` (41_bit_ingest.md R88). -/
def Block.syncMatches (b : Block) : Bool := (b.shiftRegister &&& b.syncMask) == b.syncWord

/-- `Acquire()`: the flag set, the three cursors to 0 (R89). -/
def Block.acquire (b : Block) : Block :=
  { b with acquired := true, writeCursor := 0, readCursor := 0, bitCursor := 0 }

/-- `DropSync()`: nothing when `syncLength = 0`, else the flag and the shift register cleared
(40_sync_control.md R85). -/
def Block.dropSync (b : Block) : Block :=
  if b.syncLength = 0#6 then b else { b with acquired := false, shiftRegister := 0x00000000#32 }

/-- The flag after a successful CFGSYNC: set when `length = 0`, else kept (40_sync_control.md R81, R83). -/
def Block.acquiredAfterConfigure (b : Block) (length : Nat) : Bool :=
  if length = 0 then true else b.acquired

end Sys2Proof.Machine
end

