-- ==== Sys2Proof/Machine/Ops.lean ====
section
/-! DEFINITION. The named operations over the store, the cursors, the entropy source and the response port. -/

namespace Sys2Proof.Machine

/-! ## The byte store -/

/-- What an unlisted index reads as. The content of `storage` at power-up is unspecified and unobservable
(10_state.md R39, R42); 0x00 is the model's value (DESIGN CHOICE, unsafe, log 2). -/
def Memory.unlisted (_i : Nat) : Byte := 0x00#8

/-- One byte of the store. -/
def Memory.read : Memory → Nat → Byte
  | [], i => Memory.unlisted i
  | (j, v) :: m, i => if j = i then v else Memory.read m i

/-- The store with byte `i` set to `v`, in canonical form. -/
def Memory.write : Memory → Nat → Byte → Memory
  | [], i, v => if v = Memory.unlisted i then [] else [(i, v)]
  | (j, u) :: m, i, v =>
    if i < j then
      if v = Memory.unlisted i then (j, u) :: m else (i, v) :: (j, u) :: m
    else if i = j then
      if v = Memory.unlisted i then m else (i, v) :: m
    else (j, u) :: Memory.write m i v

/-- The canonical form: indices strictly rising, no entry equal to what an unlisted index reads as. -/
def Memory.wf : Memory → Bool
  | [] => true
  | (i, v) :: m => decide (v ≠ Memory.unlisted i) && m.all (fun c => decide (i < c.1)) && Memory.wf m

/-- Every listed index is below `CAPACITY` (20_memory.md R45). -/
def Memory.within (capacity : Nat) (m : Memory) : Bool := m.all fun c => decide (c.1 < capacity)

/-- `MemRead(i, 1)` (20_memory.md R46); an index that does not exist reads a free value (log 7). -/
def Block.memRead (cfg : Config) (b : Block) (i : Nat) : Byte :=
  if i < cfg.capacity then b.storage.read i else Config.absentByte i

/-- `MemWrite(i, 1, v)` (20_memory.md R46); an index that does not exist holds nothing (log 7). -/
def Block.memWrite (cfg : Config) (b : Block) (i : Nat) (v : Byte) : Block :=
  if i < cfg.capacity then { b with storage := b.storage.write i v } else b

/-! ## The sync-word detector -/

/-- The fields a successful CFGSYNC writes (40_sync_control.md R81, R83, R84). -/
def Block.configure (b : Block) (value : Word) (length : Nat) : Block :=
  { b with
    syncMask := lowMask length
    syncWord := value
    syncLength := BitVec.ofNat 6 length
    acquired := b.acquiredAfterConfigure length }

/-- `Seek(bit)`: shift, then compare the new value once (41_bit_ingest.md R88). -/
def Block.seek (b : Block) (bit : Bool) : Block :=
  let b' := { b with shiftRegister := shiftIn b.shiftRegister bit }
  if b'.syncMatches then b'.acquire else b'

/-! ## The bit-to-byte accumulator -/

/-- `Rewind()`: both cursors to 0 (R94). -/
def Block.rewind (b : Block) : Block := { b with writeCursor := 0, readCursor := 0 }

/-- The block ready to pack a bit: as it is when the store is not full, rewound when it is full and drained,
`none` when it is full and not drained (R87, R93, R94). -/
def Block.makeRoom (cfg : Config) (b : Block) : Option Block :=
  if b.writeCursor = cfg.capacity then
    if b.readCursor = b.writeCursor then some b.rewind else none
  else some b

/-- `Commit()`: transform the completed byte, advance the write cursor, bit cursor to 0 (R92). -/
def Block.commit (cfg : Config) (b : Block) : Block :=
  { b.memWrite cfg b.writeCursor (xformByte cfg.xform (b.memRead cfg b.writeCursor)) with
    writeCursor := b.writeCursor + 1, bitCursor := 0 }

/-- `Pack(bit)`: put the bit at `bitCursor` of `storage[writeCursor]`, then commit or advance (R90). -/
def Block.pack (cfg : Config) (b : Block) (bit : Bool) : Block :=
  let b' := b.memWrite cfg b.writeCursor (putBit (b.memRead cfg b.writeCursor) b.bitCursor bit)
  if b.bitCursor = 7 then b'.commit cfg else { b' with bitCursor := b.bitCursor + 1 }

/-- The count of unread complete bytes, `writeCursor - readCursor`, as 32 bits (42_consumer.md R98; 10_state.md
R37). The difference is never negative in a state that meets the invariant (log 8). -/
def Block.available (b : Block) : Word := BitVec.ofNat 32 (b.writeCursor - b.readCursor)

/-! ## The entropy source -/

/-- `Draw()` (00_scope.md R18, 43_rng.md R110): 0x00 from the stub; else the byte the outside supplies, free
where the state does not list it (log 6). -/
def Source.draw (cfg : Config) (src : Source) : Byte × Source :=
  match cfg.entropyMode with
  | .stubZero => (0x00#8, { src with drawn := src.drawn + 1 })
  | .external =>
    match src.pending with
    | e :: rest => (e, { pending := rest, drawn := src.drawn + 1 })
    | [] => (Config.externalByte src.drawn, { src with drawn := src.drawn + 1 })

/-- Four draws in order, as the 32-bit raw value (43_rng.md R103, R104). -/
def Source.drawWord (cfg : Config) (src : Source) : Word × Source :=
  let d0 := src.draw cfg
  let d1 := d0.2.draw cfg
  let d2 := d1.2.draw cfg
  let d3 := d2.2.draw cfg
  (bigEndian d0.1 d1.1 d2.1 d3.1, d3.2)

/-- `RandMax(max)` (43_rng.md R103): 0 without a draw when `max = 0`. -/
def Source.randMax (cfg : Config) (src : Source) (max : Int) : Int × Source :=
  if max = 0 then (0, src)
  else
    let d := src.drawWord cfg
    (truncRem (guardedAbs (s32 d.1)) max, d.2)

/-! ## The response port -/

/-- The number of a status (30_encoding.md R66). -/
def Status.code : Status → BitVec 8
  | .ok => 0x00#8
  | .unsupported => 0x01#8
  | .invalidSyncWord => 0x02#8
  | .bufferEmpty => 0x03#8
  | .overflow => 0x04#8

/-- The 40-bit response word, status in the high byte (30_encoding.md R65). -/
def Response.word (r : Response) : RspWord := r.st.code ++ r.d

/-- End a command with block `b` and response `st(d)`. -/
def State.respond (s : State) (b : Block) (st : Status) (d : Word) : State :=
  { s with block := b, rsp := some ⟨st, d⟩ }

/-- The one error channel (60_exceptions.md R113, R120, R124): the status with data 0, no field of the block
written. There is no trap entry and no trap return. -/
def State.fail (s : State) (st : Status) : State := s.respond s.block st 0x00000000#32

/-- End a command that did what its rule says (60_exceptions.md R118). -/
def State.succeed (s : State) (b : Block) (d : Word) : State := s.respond b .ok d

/-- End an RNG command: data `d`, the entropy drawn, no field of the block written (43_rng.md R112). -/
def State.succeedDrawn (s : State) (d : Word) (src : Source) : State :=
  { s.succeed s.block d with source := src }

/-! ## The events -/

/-- Take the next command of the order off it, and note its sender (00_scope.md R4; 60_exceptions.md R116). -/
def State.accept (s : State) (a : Agent) (rest : List Event) : State :=
  { s with inputs := rest, sender := some a }

/-- A reserved word: `UNSUPPORTED`, nothing changed, nothing drawn (30_encoding.md R72; 60_exceptions.md R117). -/
def State.performReserved (s : State) : State := s.fail .unsupported

/-- The RESET event: every field but `storage`; no response; the configuration and the entropy source are not
touched (70_reset_and_hazards.md R131 to R133; log 9). -/
def State.performReset (s : State) (rest : List Event) : State :=
  { s with block := Block.afterReset s.block.storage, inputs := rest, sender := none, rsp := none }

/-- The arrival of a command word as the very next event (log 4). -/
def State.arrive (s : State) (a : Agent) (w : CmdWord) : State :=
  { s with inputs := .command a w :: s.inputs }

end Sys2Proof.Machine
end

