-- ==== Sys2Proof/Machine/BitIngest.lean ====
section
/-! DEFINITION. INGEST (41_bit_ingest.md). -/

namespace Sys2Proof.Machine

/-- INGEST (R87, R97): one test on `acquired` as it is when the command starts; seeking never overflows. -/
def execIngest (bit : Bool) (s : State) : Host.Outcome State Fault Refusal :=
  if s.block.acquired then
    match s.block.makeRoom s.cfg with
    | none => .next (s.fail .overflow)
    | some b => .next (s.succeed (b.pack s.cfg bit) 0x00000000#32)
  else .next (s.succeed (s.block.seek bit) 0x00000000#32)

end Sys2Proof.Machine
end

