-- ==== Sys2Proof/Machine/Consumer.lean ====
section
/-! DEFINITION. AVAIL and CONSUME (42_consumer.md). -/

namespace Sys2Proof.Machine

/-- AVAIL (R98). -/
def execAvail (s : State) : Host.Outcome State Fault Refusal :=
  .next (s.succeed s.block s.block.available)

/-- CONSUME (R99 to R101): an empty store fails and writes nothing; else read, advance, then drop sync. -/
def execConsume (dropSyncAfter : Bool) (s : State) : Host.Outcome State Fault Refusal :=
  if s.block.readCursor = s.block.writeCursor then .next (s.fail .bufferEmpty)
  else
    let v := s.block.memRead s.cfg s.block.readCursor
    let b := { s.block with readCursor := s.block.readCursor + 1 }
    .next (s.succeed (if dropSyncAfter then b.dropSync else b) (v.setWidth 32))

end Sys2Proof.Machine
end

