-- ==== Sys2Proof/Machine/Rng.lean ====
section
/-! DEFINITION. RANDMAX, RANDRANGE and RANDBYTE (43_rng.md); reserved when `HAS_RNG = 0` (30_encoding.md R73). -/

namespace Sys2Proof.Machine

/-- RANDMAX (R103 to R105). -/
def execRandmax (max : Int) (s : State) : Host.Outcome State Fault Refusal :=
  if s.cfg.hasRng then
    let r := s.source.randMax s.cfg max
    .next (s.succeedDrawn (u32 r.1) r.2)
  else .next (s.fail .unsupported)

/-- RANDRANGE (R106, R107): a signed comparison, then `min + RandMax(max - min)` with wrapping. -/
def execRandrange (min max : Int) (s : State) : Host.Outcome State Fault Refusal :=
  if s.cfg.hasRng then
    if max ≤ min then .next (s.succeedDrawn (u32 min) s.source)
    else
      let r := s.source.randMax s.cfg (wrap32 (max - min))
      .next (s.succeedDrawn (u32 (wrap32 (min + r.1))) r.2)
  else .next (s.fail .unsupported)

/-- RANDBYTE (R108). -/
def execRandbyte (s : State) : Host.Outcome State Fault Refusal :=
  if s.cfg.hasRng then
    let r := s.source.draw s.cfg
    .next (s.succeedDrawn (r.1.setWidth 32) r.2)
  else .next (s.fail .unsupported)

end Sys2Proof.Machine
end

