-- ==== Sys2Proof/Machine/SyncControl.lean ====
section
/-! DEFINITION. CFGSYNC and DROPSYNC (40_sync_control.md). -/

namespace Sys2Proof.Machine

/-- CFGSYNC (R81 to R84): a length above 32 fails and writes nothing. -/
def execCfgsync (value : Word) (length : Nat) (s : State) : Host.Outcome State Fault Refusal :=
  if 32 < length then .next (s.fail .invalidSyncWord)
  else .next (s.succeed (s.block.configure value length) 0x00000000#32)

/-- DROPSYNC (R85, R86). -/
def execDropsync (s : State) : Host.Outcome State Fault Refusal :=
  .next (s.succeed s.block.dropSync 0x00000000#32)

end Sys2Proof.Machine
end

