-- ==== Sys2Proof/Machine/Dispatch.lean ====
section
/-! DEFINITION. One arm per command. -/

namespace Sys2Proof.Machine

def exec (i : Instr) (s : State) : Host.Outcome State Fault Refusal :=
  match i with
  | .cfgsync value length => Sys2Proof.Machine.execCfgsync value length s
  | .dropsync => Sys2Proof.Machine.execDropsync s
  | .ingest bit => Sys2Proof.Machine.execIngest bit s
  | .avail => Sys2Proof.Machine.execAvail s
  | .consume dropSyncAfter => Sys2Proof.Machine.execConsume dropSyncAfter s
  | .randmax max => Sys2Proof.Machine.execRandmax max s
  | .randrange min max => Sys2Proof.Machine.execRandrange min max s
  | .randbyte => Sys2Proof.Machine.execRandbyte s

end Sys2Proof.Machine
end

