-- ==== Sys2Proof/Machine/Step.lean ====
section
/-! DEFINITION. One step: the next event of the command order, performed completely (00_scope.md R4). -/

namespace Sys2Proof.Machine

/-- Perform the next event: a command, a reserved word, or RESET. With no event to come nothing happens and
the state stands (DESIGN CHOICE, safe, log 4). -/
def step (s : State) : Host.Outcome State Fault Refusal :=
  match s.inputs with
  | [] => .next s
  | .reset :: rest => .next (s.performReset rest)
  | .command a w :: rest =>
    match decode w with
    | .command i => exec i (s.accept a rest)
    | .reserved _ => .next (s.accept a rest).performReserved

/-- The state with the opcode-table word `w` arriving as the very next command. The block takes its commands
from outside and has no fetch (10_state.md R21), so this puts the word at the head of the command order, sent
by the controller (no command looks at its sender, 00_scope.md R5; log 4). -/
def State.withFetchWord (s : State) (_nbits w : Nat) : State := s.arrive .controller (tableWord w)

end Sys2Proof.Machine
end

