-- ==== Sys2Proof/Safety.lean ====
section
/-! DEFINITION. What claims are stated in: the invariant of 10_state.md section 4, agreement up to what no command
can read, the commands of one agent, and the software discipline of 70_reset_and_hazards.md. -/

namespace Sys2Proof.Machine

/-- The invariants of a block with configuration `cfg`. -/
structure Block.Inv (cfg : Config) (b : Block) : Prop where
  /-- 10_state.md R32. -/
  lengthLegal : b.syncLength.toNat ≤ 32
  /-- 10_state.md R33. -/
  passThroughAcquired : b.syncLength = 0#6 → b.acquired = true
  /-- 10_state.md R34. -/
  maskDerived : b.syncMask = lowMask b.syncLength.toNat
  /-- 10_state.md R35. -/
  readLeWrite : b.readCursor ≤ b.writeCursor
  /-- 10_state.md R35. -/
  writeLeCapacity : b.writeCursor ≤ cfg.capacity
  /-- 10_state.md R36. -/
  fullAligned : b.writeCursor = cfg.capacity → b.bitCursor = 0
  /-- The store is in its canonical form (the model's own clause). -/
  storageCanonical : b.storage.wf = true
  /-- The store lists no index outside `0 .. CAPACITY - 1` (20_memory.md R45). -/
  storageWithin : b.storage.within cfg.capacity = true

/-- The invariant of the machine: a legal configuration (00_scope.md R7) and the block's invariants. -/
structure State.Inv (s : State) : Prop where
  cfgLegal : s.cfg.wf = true
  blockInv : s.block.Inv s.cfg

/-- Two blocks that differ at most in what no command can read: bytes at or above `writeCursor`, but for the bits
of the byte being assembled that have been packed (10_state.md R38, R39). -/
structure Block.Agree (b c : Block) : Prop where
  syncWord : b.syncWord = c.syncWord
  syncMask : b.syncMask = c.syncMask
  syncLength : b.syncLength = c.syncLength
  shiftRegister : b.shiftRegister = c.shiftRegister
  acquired : b.acquired = c.acquired
  writeCursor : b.writeCursor = c.writeCursor
  readCursor : b.readCursor = c.readCursor
  bitCursor : b.bitCursor = c.bitCursor
  complete : ∀ i, i < b.writeCursor → b.storage.read i = c.storage.read i
  packed : ∀ k, k < b.bitCursor.val →
    (b.storage.read b.writeCursor).getLsbD k = (c.storage.read b.writeCursor).getLsbD k

/-- Two machines that differ at most in what no command can read. -/
structure State.Agree (s t : State) : Prop where
  cfg : s.cfg = t.cfg
  block : s.block.Agree t.block
  inputs : s.inputs = t.inputs
  sender : s.sender = t.sender
  rsp : s.rsp = t.rsp
  source : s.source = t.source

/-- The unread complete bytes, oldest first: `storage[i]` for `readCursor <= i < writeCursor` (10_state.md R37). -/
def Block.unread (b : Block) : List Byte :=
  (List.range (b.writeCursor - b.readCursor)).map fun k => b.storage.read (b.readCursor + k)

/-- The command words agent `a` still has to send, in its own order (20_memory.md R61). -/
def Event.wordsOf (a : Agent) : List Event → List CmdWord
  | [] => []
  | .reset :: rest => Event.wordsOf a rest
  | .command a' w :: rest => if a' = a then w :: Event.wordsOf a rest else Event.wordsOf a rest

/-- The role that sends a command under the discipline of 00_scope.md R5. -/
def Instr.role : Instr → Agent
  | .cfgsync _ _ => .controller
  | .dropsync => .controller
  | .ingest _ => .producer
  | .avail => .consumer
  | .consume _ => .consumer
  | .randmax _ => .rngClient
  | .randrange _ _ => .rngClient
  | .randbyte => .rngClient

/-- An event that keeps the software discipline: each command is sent by the one agent whose command it is
(00_scope.md R5, 70_reset_and_hazards.md R139 to R141). The block does not check it (60_exceptions.md R126). A
reserved word is no agent's command: R5, R140 and R141 name no sender for it and R139 says the producer sends INGEST
only; it counts here as keeping the discipline from every agent, the producer too (DESIGN CHOICE, safe, log 12). -/
def Event.disciplined : Event → Bool
  | .reset => true
  | .command a w =>
    match decode w with
    | .command i => decide (Instr.role i = a)
    | .reserved _ => true

/-- One INGEST command from the producer. -/
def Event.bit (bit : Bool) : Event := .command .producer (encode (.ingest bit))

/-- The eight bits of each byte, most significant first, as INGEST commands from the producer (FEED, R77). -/
def Event.feedBytes : List Byte → List Event
  | [] => []
  | v :: vs => (bitsMsbFirst (v.setWidth 32) 8).map Event.bit ++ Event.feedBytes vs

end Sys2Proof.Machine
end

