-- ==== Sys2Proof/Certificates/Slice0/Obligations.lean ====
section
/-! DEFINITION. The statements for the provers. Each docstring names the rule of spec/ it formalises. -/

open Sys2Proof Sys2Proof.Machine

/-! ## Encoding -/

/-- Words of 95_test_vectors.md V-B, one or more per family, written out from 30_encoding.md R64 and R68 to R72,
decode to the commands they stand for (a reserved word to none). -/
def Obligations.SpecWordsDecodeAsWritten : Prop :=
  decode 0x010000A5A500000010#72 = .command (.cfgsync 0x0000A5A5#32 16) ∧
  decode 0x01FFFFFFFF00000100#72 = .command (.cfgsync 0xFFFFFFFF#32 256) ∧
  decode 0x02DEADBEEF12345678#72 = .command .dropsync ∧
  decode 0x030000000000000001#72 = .command (.ingest true) ∧
  decode 0x03FFFFFFFFFFFFFFFE#72 = .command (.ingest false) ∧
  decode 0x030000000000000002#72 = .command (.ingest false) ∧
  decode 0x040000000000000000#72 = .command .avail ∧
  decode 0x050000000000000003#72 = .command (.consume true) ∧
  decode 0x1000000000FFFFFFF9#72 = .command (.randmax (-7)) ∧
  decode 0x11FFFFFFFB00000005#72 = .command (.randrange (-5) 5) ∧
  decode 0x120000000000000000#72 = .command .randbyte ∧
  decode 0x000000000000000000#72 = .reserved 0x00#8 ∧
  decode 0x0FFFFFFFFFFFFFFFFF#72 = .reserved 0x0F#8 ∧
  decode 0x130000000000000000#72 = .reserved 0x13#8

/-- Decode of encode is the command, for every well-formed command (30_encoding.md R64, R68 to R71, R76). -/
def Obligations.DecodeOfEncodeIsTheCommand : Prop :=
  ∀ i : Instr, i.wf = true → decode (encode i) = .command i

/-- A word that decodes to a command is that command's encoding in every bit the command reads, and the command
is well-formed; the encoder writes zeros in the ignored bits (30_encoding.md R69 to R71, R74, R76). -/
def Obligations.EncodeRecoversEveryReadBit : Prop :=
  ∀ (w : CmdWord) (i : Instr), decode w = .command i → i.wf = true ∧ encode i = w &&& i.usedBits

/-- Two words that differ only in ignored bits decode alike and give the same step (30_encoding.md R74, the
spec's own decision D4). -/
def Obligations.IgnoredBitsHaveNoEffect : Prop :=
  ∀ (w w' : CmdWord) (i : Instr), decode w = .command i → w &&& i.usedBits = w' &&& i.usedBits →
    decode w' = .command i ∧
    ∀ (s : State) (a : Agent) (rest : List Event),
      step { s with inputs := .command a w :: rest } = step { s with inputs := .command a w' :: rest }

/-- Every 72-bit word is a command or reserved, and the reserved ones are those whose bits 71 to 64 are none of
the eight opcodes (30_encoding.md R68, R72, R75, the spec's own decisions D2 and D5). -/
def Obligations.ReservedWordsAreExactlyTheOtherOpcodes : Prop :=
  ∀ w : CmdWord,
    ((∃ i, decode w = .command i) ↔
      w.toNat / 2 ^ 64 ∈ [0x01, 0x02, 0x03, 0x04, 0x05, 0x10, 0x11, 0x12]) ∧
    ((∃ op, decode w = .reserved op) ↔
      w.toNat / 2 ^ 64 ∉ [0x01, 0x02, 0x03, 0x04, 0x05, 0x10, 0x11, 0x12])

/-- When the next event is a command word that decodes to `i`, the step is `exec i` on the state with that event
taken and its sender noted; so too for a table word placed by `withFetchWord` (00_scope.md R4, R6; that the
command order stands in `inputs` is the model's choice, log 4). -/
def Obligations.StepRunsTheDecodedCommand : Prop :=
  (∀ (s : State) (a : Agent) (w : CmdWord) (rest : List Event) (i : Instr),
    s.inputs = .command a w :: rest → decode w = .command i →
    step s = exec i { s with inputs := rest, sender := some a }) ∧
  (∀ (s : State) (nbits w : Nat) (i : Instr), decodeTableWord nbits w = some i →
    step (s.withFetchWord nbits w) = exec i { s with sender := some .controller })

/-- A reserved word changes no field of the block, draws nothing and answers `UNSUPPORTED` with data 0
(30_encoding.md R72, the spec's own decision D5). -/
def Obligations.ReservedWordAnswersUnsupported : Prop :=
  ∀ (s : State) (a : Agent) (w : CmdWord) (rest : List Event) (op : BitVec 8),
    s.inputs = .command a w :: rest → decode w = .reserved op →
    step s = .next { s with inputs := rest, sender := some a, rsp := some ⟨.unsupported, 0#32⟩ }

/-- With `HAS_RNG = 0` the three RNG commands answer `UNSUPPORTED`, change nothing and draw nothing
(30_encoding.md R73, the spec's own decision D19). -/
def Obligations.RngCommandsAreUnsupportedWithoutRng : Prop :=
  ∀ (s : State) (min max : Int), s.cfg.hasRng = false →
    exec (.randmax max) s = .next { s with rsp := some ⟨.unsupported, 0#32⟩ } ∧
    exec (.randrange min max) s = .next { s with rsp := some ⟨.unsupported, 0#32⟩ } ∧
    exec .randbyte s = .next { s with rsp := some ⟨.unsupported, 0#32⟩ }

/-- The 40-bit response word: status number in bits 39 to 32, data in bits 31 to 0 (30_encoding.md R65, R66, the
spec's own decision D3). -/
def Obligations.ResponseWordHoldsStatusAndData : Prop :=
  ∀ r : Response,
    r.word.toNat = (match r.st with
      | .ok => 0 | .unsupported => 1 | .invalidSyncWord => 2 | .bufferEmpty => 3 | .overflow => 4) * 2 ^ 32
      + r.d.toNat

/-- `FEED v, n` is `n` INGEST commands, bit `n - 1` of `v` first (30_encoding.md R77, decision D29). -/
def Obligations.FeedSendsTheBitsMostSignificantFirst : Prop :=
  ∀ f : Feed, f.wf = true →
    f.expand.length = f.n ∧
    ∀ k (h : k < f.expand.length), f.expand[k] = .ingest (f.v.getLsbD (f.n - 1 - k))

/-! ## Primitives -/

/-- `ShiftIn(sr, bit)` is `((sr << 1) | bit) mod 2^32` (00_scope.md R12). -/
def Obligations.ShiftInDropsTheOldTopBit : Prop :=
  ∀ (sr : Word) (bit : Bool),
    (shiftIn sr bit).toNat = (2 * sr.toNat + (if bit then 1 else 0)) % 2 ^ 32 ∧
    (∀ k, k < 31 → (shiftIn sr bit).getLsbD (k + 1) = sr.getLsbD k) ∧ (shiftIn sr bit).getLsbD 0 = bit

/-- `Reverse8`: bit `i` of the result is bit `7 - i`; twice is the identity; the examples of the rule
(00_scope.md R13). -/
def Obligations.ReverseMirrorsTheBits : Prop :=
  (∀ (v : Byte) (i : Nat), i ≤ 7 → (reverse8 v).getLsbD i = v.getLsbD (7 - i)) ∧
  (∀ v : Byte, reverse8 (reverse8 v) = v) ∧
  reverse8 0x01#8 = 0x80#8 ∧ reverse8 0x03#8 = 0xC0#8 ∧ reverse8 0xD2#8 = 0x4B#8 ∧
  reverse8 0xA5#8 = 0xA5#8 ∧ reverse8 0x00#8 = 0x00#8 ∧ reverse8 0xFF#8 = 0xFF#8

/-- `GuardedAbs`: the guard at `-2^31`, the absolute value elsewhere, the range (00_scope.md R16). -/
def Obligations.GuardedAbsNeverOverflows : Prop :=
  ∀ i : Int, -2 ^ 31 ≤ i → i ≤ 2 ^ 31 - 1 →
    guardedAbs i = (if i = -2 ^ 31 then 2 ^ 31 - 1 else |i|) ∧ 0 ≤ guardedAbs i ∧ guardedAbs i ≤ 2 ^ 31 - 1

/-- `LowMask`, `Wrap32` and `TruncRem`, each as its rule says (00_scope.md R11, R17, R19, the spec's own decisions
D8, D20, D21). -/
def Obligations.MaskWrapAndRemainderMeetTheirRules : Prop :=
  (∀ n : Nat, n ≤ 32 → (lowMask n).toNat = 2 ^ n - 1) ∧
  (∀ i : Int, -2 ^ 31 ≤ wrap32 i ∧ wrap32 i ≤ 2 ^ 31 - 1 ∧ (2 ^ 32 : Int) ∣ i - wrap32 i) ∧
  (∀ a m : Int, 0 ≤ a → m ≠ 0 → truncRem a m = a % |m| ∧ 0 ≤ truncRem a m ∧ truncRem a m < |m|)

/-! ## CFGSYNC and DROPSYNC -/

/-- CFGSYNC: its word, its failure (length above 32, nothing written), its effect, that sent twice it is as
sent once, and that in pass-through mode no command's response or effect depends on the stored word
(40_sync_control.md R81, R82). -/
def Obligations.CfgsyncResult : Prop :=
  ∀ (s : State) (value : Word) (length : Nat), length < 2 ^ 32 →
    decode (0x01#8 ++ value ++ BitVec.ofNat 32 length) = .command (.cfgsync value length) ∧
    (32 < length →
      exec (.cfgsync value length) s = .next { s with rsp := some ⟨.invalidSyncWord, 0#32⟩ }) ∧
    (length ≤ 32 →
      exec (.cfgsync value length) s = .next { s with
        rsp := some ⟨.ok, 0#32⟩
        block := { s.block with
          syncMask := BitVec.ofNat 32 (2 ^ length - 1)
          syncWord := value
          syncLength := BitVec.ofNat 6 length
          acquired := s.block.acquired || decide (length = 0) } }) ∧
    (∀ t, exec (.cfgsync value length) s = .next t → exec (.cfgsync value length) t = .next t) ∧
    (s.block.syncLength.toNat = 0 → s.block.acquired = true →
      ∀ (i : Instr) (t : State), exec i s = .next t →
        ∃ u, exec i { s with block := { s.block with syncWord := value } } = .next u ∧
          u = { t with block := { t.block with syncWord := u.block.syncWord } })

/-- DROPSYNC: its word, a no-op when `syncLength = 0`, else `acquired` and the shift register cleared, always
`OK`, and that sent twice it is as sent once (40_sync_control.md R85). -/
def Obligations.DropsyncResult : Prop :=
  ∀ (s : State) (a b : Word),
    decode (0x02#8 ++ a ++ b) = .command .dropsync ∧
    (s.block.syncLength.toNat = 0 → exec .dropsync s = .next { s with rsp := some ⟨.ok, 0#32⟩ }) ∧
    (0 < s.block.syncLength.toNat →
      exec .dropsync s = .next { s with
        rsp := some ⟨.ok, 0#32⟩
        block := { s.block with acquired := false, shiftRegister := 0#32 } }) ∧
    (∀ t, exec .dropsync s = .next t → exec .dropsync t = .next t)

/-- CFGSYNC with a length of 1 to 32 and then DROPSYNC, from whatever agents: the block seeks, with the new word,
mask and length and an empty window, the cursors and the store as they were; after the CFGSYNC alone `acquired`
and the window are as before (70_reset_and_hazards.md R135, R147; 40_sync_control.md R83, decision D9). -/
def Obligations.CfgsyncThenDropsyncStartsASearch : Prop :=
  ∀ (s : State) (a a' : Agent) (value : Word) (length : Nat) (rest : List Event),
    1 ≤ length → length ≤ 32 →
    s.inputs = .command a (encode (.cfgsync value length)) :: .command a' (encode .dropsync) :: rest →
    (∃ t : State, Sys2Proof.core.run 1 s = .next t ∧ t.block.acquired = s.block.acquired ∧
      t.block.shiftRegister = s.block.shiftRegister) ∧
    Sys2Proof.core.run 2 s = .next { s with
      inputs := rest
      sender := some a'
      rsp := some ⟨.ok, 0#32⟩
      block := { s.block with
        syncWord := value
        syncMask := BitVec.ofNat 32 (2 ^ length - 1)
        syncLength := BitVec.ofNat 6 length
        acquired := false
        shiftRegister := 0#32 } }

/-- A sync word with a 1 at or above bit `syncLength` never acquires: any number of bits while seeking gives `OK`,
leaves the block seeking, and touches neither cursors nor store (40_sync_control.md R84, decision D10;
70_reset_and_hazards.md R142). -/
def Obligations.OverwideSyncWordNeverAcquires : Prop :=
  ∀ (s : State) (bits : List Bool) (rest : List Event) (k : Nat),
    s.block.acquired = false → s.block.syncMask = lowMask s.block.syncLength.toNat →
    s.block.syncLength.toNat ≤ k → s.block.syncWord.getLsbD k = true →
    s.inputs = bits.map Event.bit ++ rest →
    ∃ t : State, Sys2Proof.core.run bits.length s = .next t ∧ t.inputs = rest ∧
      t.block = { s.block with shiftRegister := t.block.shiftRegister } ∧
      (bits ≠ [] → t.rsp = some ⟨.ok, 0#32⟩)

/-! ## INGEST -/

/-- INGEST while seeking: shift, one comparison on the new value, and at a match the flag set and the three
cursors at 0; the store untouched, always `OK`; no other command but a CFGSYNC with length 0 ends the search
(41_bit_ingest.md R88, R89). -/
def Obligations.IngestSeekingResult : Prop :=
  ∀ (s : State) (bit : Bool) (sr : Word), s.block.acquired = false →
    sr = (s.block.shiftRegister <<< 1) ||| (if bit then 1#32 else 0#32) →
    (sr &&& s.block.syncMask = s.block.syncWord →
      exec (.ingest bit) s = .next { s with
        rsp := some ⟨.ok, 0#32⟩
        block := { s.block with
          shiftRegister := sr, acquired := true, writeCursor := 0, readCursor := 0, bitCursor := 0 } }) ∧
    (sr &&& s.block.syncMask ≠ s.block.syncWord →
      exec (.ingest bit) s = .next { s with
        rsp := some ⟨.ok, 0#32⟩
        block := { s.block with shiftRegister := sr } }) ∧
    (∀ (i : Instr) (t : State), (∀ b, i ≠ .ingest b) → (∀ v, i ≠ .cfgsync v 0) → exec i s = .next t →
      t.block.acquired = false)

/-- INGEST while packing with room: the bit at position `bitCursor` of the byte at `writeCursor`, the other seven
bits as they were; after the eighth the byte transformed, the write cursor advanced, the bit cursor at 0; every
other byte and field unchanged (20_memory.md R49; 41_bit_ingest.md R90 to R92). -/
def Obligations.IngestPackingResult : Prop :=
  ∀ (s : State) (bit : Bool), s.block.acquired = true → s.block.writeCursor < s.cfg.capacity →
    s.block.storage.wf = true →
    ∃ t, exec (.ingest bit) s = .next t ∧
      t = { s with
        rsp := some ⟨.ok, 0#32⟩
        block := { s.block with
          storage := t.block.storage
          writeCursor := if s.block.bitCursor = 7 then s.block.writeCursor + 1 else s.block.writeCursor
          bitCursor := if s.block.bitCursor = 7 then 0 else s.block.bitCursor + 1 } } ∧
      (∀ a, a ≠ s.block.writeCursor → t.block.storage.read a = s.block.storage.read a) ∧
      (s.block.bitCursor ≠ 7 → ∀ k, k < 8 →
        (t.block.storage.read s.block.writeCursor).getLsbD k =
          if k = s.block.bitCursor.val then bit
          else (s.block.storage.read s.block.writeCursor).getLsbD k) ∧
      (s.block.bitCursor = 7 → ∀ k, k < 8 →
        (t.block.storage.read s.block.writeCursor).getLsbD
            (match s.cfg.xform with | .reverse8 => 7 - k | .identity => k) =
          if k = 7 then bit else (s.block.storage.read s.block.writeCursor).getLsbD k)

/-- INGEST on a full store that is not drained: `OVERFLOW`, nothing changed, the bit lost (41_bit_ingest.md R93,
the spec's own decisions D13 and D15). -/
def Obligations.IngestOnAFullUndrainedStoreOverflows : Prop :=
  ∀ (s : State) (bit : Bool), s.block.acquired = true → s.block.writeCursor = s.cfg.capacity →
    s.block.readCursor < s.block.writeCursor →
    exec (.ingest bit) s = .next { s with rsp := some ⟨.overflow, 0#32⟩ }

/-- INGEST on a full and drained store: both cursors to 0, then the bit into bit 0 of byte 0, the other bits and
bytes as they were (41_bit_ingest.md R94, the spec's own decision D14). -/
def Obligations.IngestOnAFullDrainedStoreRewinds : Prop :=
  ∀ (s : State) (bit : Bool), s.Inv → s.block.acquired = true → s.block.writeCursor = s.cfg.capacity →
    s.block.readCursor = s.block.writeCursor →
    ∃ t, exec (.ingest bit) s = .next t ∧
      t = { s with
        rsp := some ⟨.ok, 0#32⟩
        block := { s.block with
          storage := t.block.storage, writeCursor := 0, readCursor := 0, bitCursor := 1 } } ∧
      (∀ a, a ≠ 0 → t.block.storage.read a = s.block.storage.read a) ∧
      (∀ k, k < 8 → (t.block.storage.read 0).getLsbD k =
        if k = 0 then bit else (s.block.storage.read 0).getLsbD k)

/-! ## AVAIL and CONSUME -/

/-- AVAIL: its word, the difference of the cursors as the data, nothing changed; in a state that meets the cursor
invariant the data is the exact difference and at most `CAPACITY`; DROPSYNC leaves the count, an acquisition and a
rewind set it to 0 (42_consumer.md R98). -/
def Obligations.AvailResult : Prop :=
  ∀ (s : State) (a b : Word),
    decode (0x04#8 ++ a ++ b) = .command .avail ∧
    ∃ d : Word, exec .avail s = .next { s with rsp := some ⟨.ok, d⟩ } ∧
      (s.Inv → (d.toNat : Int) = (s.block.writeCursor : Int) - (s.block.readCursor : Int) ∧
        d.toNat ≤ s.cfg.capacity) ∧
      (∀ t, exec .dropsync s = .next t → exec .avail t = .next { t with rsp := some ⟨.ok, d⟩ }) ∧
      (∀ bit t, s.block.acquired = false → exec (.ingest bit) s = .next t → t.block.acquired = true →
        exec .avail t = .next { t with rsp := some ⟨.ok, 0#32⟩ }) ∧
      (∀ bit t, s.Inv → s.block.acquired = true → s.block.writeCursor = s.cfg.capacity →
        s.block.readCursor = s.block.writeCursor → exec (.ingest bit) s = .next t →
        exec .avail t = .next { t with rsp := some ⟨.ok, 0#32⟩ })

/-- CONSUME: its word; an empty store gives `BUFFER_EMPTY` and writes nothing, whatever the drop operand; else
the byte at `readCursor` zero-extended, `readCursor` advanced, and with drop 1 and `syncLength > 0` the effect of
DROPSYNC; the store, `writeCursor` and `bitCursor` never written (42_consumer.md R99, R101). -/
def Obligations.ConsumeResult : Prop :=
  ∀ (s : State) (a b : Word) (drop : Bool),
    decode (0x05#8 ++ a ++ b) = .command (.consume (b.getLsbD 0)) ∧
    (s.block.readCursor = s.block.writeCursor →
      exec (.consume drop) s = .next { s with rsp := some ⟨.bufferEmpty, 0#32⟩ }) ∧
    (s.block.readCursor < s.block.writeCursor → s.block.writeCursor ≤ s.cfg.capacity →
      exec (.consume drop) s = .next { s with
        rsp := some ⟨.ok, (s.block.storage.read s.block.readCursor).zeroExtend 32⟩
        block := if drop = true ∧ 0 < s.block.syncLength.toNat then
            { s.block with
              readCursor := s.block.readCursor + 1, acquired := false, shiftRegister := 0#32 }
          else { s.block with readCursor := s.block.readCursor + 1 } })

/-! ## RANDMAX, RANDRANGE, RANDBYTE -/

/-- RANDMAX: its word; 0 without a draw for `max = 0`; else four draws in order, assembled most significant byte
first, guarded absolute value, truncated remainder by `max`; no field of the block written (43_rng.md R103, R104).
For a negative `max` the remainder is the one decision D20 chose; that the source is held in State is log 6. -/
def Obligations.RandmaxResult : Prop :=
  ∀ (s : State) (a b : Word), s.cfg.hasRng = true →
    decode (0x10#8 ++ a ++ b) = .command (.randmax b.toInt) ∧
    exec (.randmax 0) s = .next { s with rsp := some ⟨.ok, 0#32⟩ } ∧
    ∀ max : Int, -2 ^ 31 ≤ max → max ≤ 2 ^ 31 - 1 → max ≠ 0 →
      ∃ (e0 e1 e2 e3 : Byte) (raw mag : Int) (src : Source),
        raw = (e0 ++ e1 ++ e2 ++ e3).toInt ∧
        mag = (if raw = -2 ^ 31 then 2 ^ 31 - 1 else |raw|) ∧
        exec (.randmax max) s = .next { s with
          rsp := some ⟨.ok, BitVec.ofInt 32 (mag.tmod max)⟩
          source := src } ∧
        (s.cfg.entropyMode = .external → ∀ (f0 f1 f2 f3 : Byte) (rest : List Byte),
          s.source.pending = f0 :: f1 :: f2 :: f3 :: rest →
          e0 = f0 ∧ e1 = f1 ∧ e2 = f2 ∧ e3 = f3 ∧ src.pending = rest)

/-- RANDMAX completes on every operand in range, whatever the entropy, and its result is in `0 .. |max| - 1`, 0
for `max = 0` (43_rng.md R105; the negative `max` is the spec's own decision D20). -/
def Obligations.RandmaxStaysBelowItsBound : Prop :=
  ∀ (s : State) (max : Int), s.cfg.hasRng = true → -2 ^ 31 ≤ max → max ≤ 2 ^ 31 - 1 →
    ∃ (t : State) (d : Word), exec (.randmax max) s = .next t ∧ t.rsp = some ⟨.ok, d⟩ ∧
      t.block = s.block ∧ 0 ≤ d.toInt ∧ (max = 0 → d.toInt = 0) ∧ (max ≠ 0 → d.toInt < |max|)

/-- RANDRANGE: its word; `min` without a draw for `min >= max`; else `min` plus RandMax of the wrapped span, four
draws; no field of the block written (43_rng.md R106). The remainder by a wrapped span and the wrap are the spec's
own decisions D20 and D21; that the source is held in State is log 6. -/
def Obligations.RandrangeResult : Prop :=
  ∀ (s : State) (a b : Word), s.cfg.hasRng = true →
    decode (0x11#8 ++ a ++ b) = .command (.randrange a.toInt b.toInt) ∧
    ∀ min max : Int, -2 ^ 31 ≤ min → min ≤ 2 ^ 31 - 1 → -2 ^ 31 ≤ max → max ≤ 2 ^ 31 - 1 →
      (max ≤ min → exec (.randrange min max) s =
        .next { s with rsp := some ⟨.ok, BitVec.ofInt 32 min⟩ }) ∧
      (min < max →
        ∃ (e0 e1 e2 e3 : Byte) (raw mag span : Int) (src : Source),
          raw = (e0 ++ e1 ++ e2 ++ e3).toInt ∧
          mag = (if raw = -2 ^ 31 then 2 ^ 31 - 1 else |raw|) ∧
          span = (if max - min ≤ 2 ^ 31 - 1 then max - min else max - min - 2 ^ 32) ∧
          exec (.randrange min max) s = .next { s with
            rsp := some ⟨.ok, BitVec.ofInt 32 (min + mag.tmod span)⟩
            source := src } ∧
          (s.cfg.entropyMode = .external → ∀ (f0 f1 f2 f3 : Byte) (rest : List Byte),
            s.source.pending = f0 :: f1 :: f2 :: f3 :: rest →
            e0 = f0 ∧ e1 = f1 ∧ e2 = f2 ∧ e3 = f3 ∧ src.pending = rest))

/-- For `min < max` RANDRANGE answers a value in `min .. max - 1`, whatever the entropy and however wide the
range; it always completes (43_rng.md R107, the spec's own decision D21). -/
def Obligations.RandrangeStaysInItsRange : Prop :=
  ∀ (s : State) (min max : Int), s.cfg.hasRng = true →
    -2 ^ 31 ≤ min → min ≤ 2 ^ 31 - 1 → -2 ^ 31 ≤ max → max ≤ 2 ^ 31 - 1 →
    ∃ (t : State) (d : Word), exec (.randrange min max) s = .next t ∧ t.rsp = some ⟨.ok, d⟩ ∧
      t.block = s.block ∧ (max ≤ min → d.toInt = min) ∧ (min < max → min ≤ d.toInt ∧ d.toInt ≤ max - 1)

/-- RANDBYTE: its word; one draw, zero-extended; no field of the block written; 0 from the stub (43_rng.md R108).
What a draw is, is the spec's own decision D22 (00_scope.md R18); that the source, with the bytes it lists, is held
in State is the model's choice (log 6). -/
def Obligations.RandbyteResult : Prop :=
  ∀ (s : State) (a b : Word), s.cfg.hasRng = true →
    decode (0x12#8 ++ a ++ b) = .command .randbyte ∧
    ∃ (e : Byte) (src : Source),
      exec .randbyte s = .next { s with rsp := some ⟨.ok, e.zeroExtend 32⟩, source := src } ∧
      (s.cfg.entropyMode = .stubZero → e = 0#8) ∧
      (s.cfg.entropyMode = .external → ∀ (f : Byte) (rest : List Byte),
        s.source.pending = f :: rest → e = f ∧ src.pending = rest)

/-- How many entropy bytes a step draws: RANDMAX 4 (0 for `max = 0`), RANDRANGE 4 (0 for `min >= max`), RANDBYTE 1,
all with `HAS_RNG = 1`; everything else 0 (43_rng.md R109). The counter `source.drawn` is the model's own (log 6);
the statement holds for every value of it. -/
def Obligations.DrawsOfEachCommand : Prop :=
  ∀ (s t : State) (i : Instr), i.wf = true → exec i s = .next t →
    t.source.drawn = s.source.drawn +
      (match i with
        | .randmax max => if s.cfg.hasRng = true ∧ max ≠ 0 then 4 else 0
        | .randrange min max => if s.cfg.hasRng = true ∧ min < max then 4 else 0
        | .randbyte => if s.cfg.hasRng = true then 1 else 0
        | .cfgsync _ _ => 0 | .dropsync => 0 | .ingest _ => 0 | .avail => 0 | .consume _ => 0)

/-- With the stub entropy source RANDMAX answers 0 for every `max`, RANDRANGE `min` for every pair, RANDBYTE 0
(43_rng.md R110). -/
def Obligations.StubEntropyIsDegenerate : Prop :=
  ∀ (s : State), s.cfg.hasRng = true → s.cfg.entropyMode = .stubZero →
    (∃ src, s.source.draw s.cfg = (0#8, src)) ∧ (∃ src, s.source.drawWord s.cfg = (0#32, src)) ∧
    (∀ max : Int, -2 ^ 31 ≤ max → max ≤ 2 ^ 31 - 1 →
      ∃ t, exec (.randmax max) s = .next t ∧ t.rsp = some ⟨.ok, 0#32⟩) ∧
    (∀ min max : Int, -2 ^ 31 ≤ min → min ≤ 2 ^ 31 - 1 → -2 ^ 31 ≤ max → max ≤ 2 ^ 31 - 1 →
      ∃ t, exec (.randrange min max) s = .next t ∧ t.rsp = some ⟨.ok, BitVec.ofInt 32 min⟩) ∧
    (∃ t, exec .randbyte s = .next t ∧ t.rsp = some ⟨.ok, 0#32⟩)

/-- Two RANDMAX commands with the same operand and the same four entropy bytes give the same result, whatever the
two blocks hold and however many draws came before (10_state.md R41). -/
def Obligations.SameOperandAndEntropyGiveTheSameResult : Prop :=
  ∀ (s s' t t' : State) (max : Int) (e0 e1 e2 e3 : Byte) (rest rest' : List Byte),
    s.cfg.hasRng = true → s'.cfg.hasRng = true →
    s.cfg.entropyMode = .external → s'.cfg.entropyMode = .external →
    s.source.pending = e0 :: e1 :: e2 :: e3 :: rest → s'.source.pending = e0 :: e1 :: e2 :: e3 :: rest' →
    exec (.randmax max) s = .next t → exec (.randmax max) s' = .next t' → t.rsp = t'.rsp

/-- The generator and the synchronizer are independent: the RNG commands neither write nor read a field of the
block; the other five draw nothing and do not read the entropy source (43_rng.md R112). -/
def Obligations.GeneratorAndSynchronizerAreIndependent : Prop :=
  ∀ (s t : State) (i : Instr), exec i s = .next t →
    match i with
    | .randmax _ | .randrange _ _ | .randbyte =>
      t.block = s.block ∧ ∀ b : Block, exec i { s with block := b } = .next { t with block := b }
    | .cfgsync _ _ | .dropsync | .ingest _ | .avail | .consume _ =>
      t.source = s.source ∧ ∀ src : Source, exec i { s with source := src } = .next { t with source := src }

/-! ## Statuses -/

/-- `INVALID_SYNC_WORD` comes from a CFGSYNC with a length above 32 and from nothing else, `BUFFER_EMPTY` from a
CONSUME that finds the cursors equal and from nothing else; each leaves the block and the entropy source as they
were and carries its code and data 0 (60_exceptions.md R114, R115). -/
def Obligations.InvalidSyncWordAndBufferEmptyHaveOneCauseEach : Prop :=
  ∀ (s t : State) (a : Agent) (w : CmdWord) (rest : List Event) (r : Response),
    s.inputs = .command a w :: rest → step s = .next t → t.rsp = some r →
    (r.st = .invalidSyncWord ↔ ∃ v l, decode w = .command (.cfgsync v l) ∧ 32 < l) ∧
    (r.st = .bufferEmpty ↔
      ∃ drop, decode w = .command (.consume drop) ∧ s.block.readCursor = s.block.writeCursor) ∧
    (r.st = .invalidSyncWord ∨ r.st = .bufferEmpty →
      t.block = s.block ∧ t.source = s.source ∧ r.d = 0#32) ∧
    (r.st = .invalidSyncWord → r.word = 0x0200000000#40) ∧ (r.st = .bufferEmpty → r.word = 0x0300000000#40)

/-- `OVERFLOW` comes from an INGEST that finds `acquired = 1`, `writeCursor = CAPACITY` and the store not drained,
`UNSUPPORTED` from a reserved word or an RNG command with `HAS_RNG = 0`; nothing else gives either
(60_exceptions.md R116, R117, the spec's own decisions D5, D13, D15). -/
def Obligations.OverflowAndUnsupportedHaveOneCauseEach : Prop :=
  ∀ (s t : State) (a : Agent) (w : CmdWord) (rest : List Event) (r : Response),
    s.Inv → s.inputs = .command a w :: rest → step s = .next t → t.rsp = some r →
    (r.st = .overflow ↔ ∃ bit, decode w = .command (.ingest bit) ∧ s.block.acquired = true ∧
      s.block.writeCursor = s.cfg.capacity ∧ s.block.readCursor < s.block.writeCursor) ∧
    (r.st = .unsupported ↔ (∃ op, decode w = .reserved op) ∨
      (s.cfg.hasRng = false ∧ ((∃ m, decode w = .command (.randmax m)) ∨
        (∃ m n, decode w = .command (.randrange m n)) ∨ decode w = .command .randbyte)))

/-- A command whose status is not `OK` has changed nothing but the response port: block, entropy source,
configuration and the commands to come are as they were, and its data is 0 (60_exceptions.md R120;
30_encoding.md R67, the spec's own decision D3). That the response port stands in State is the model's choice
(log 5). -/
def Obligations.FailedCommandsChangeNothing : Prop :=
  ∀ (s t : State) (a : Agent) (w : CmdWord) (rest : List Event) (r : Response),
    s.inputs = .command a w :: rest → step s = .next t → t.rsp = some r → r.st ≠ .ok →
    t = { s with inputs := rest, sender := some a, rsp := some ⟨r.st, 0#32⟩ }

/-- Every command gives one response, to its sender; the data of CFGSYNC, DROPSYNC and INGEST is 0, that of CONSUME
and RANDBYTE below 256; of the other three nothing is said here, their own result statements say it (00_scope.md R4;
30_encoding.md R65, R67, the spec's own decisions D1 and D3; the response port and the sender in State are log 5). -/
def Obligations.EveryCommandGivesOneResponse : Prop :=
  ∀ (s t : State) (a : Agent) (w : CmdWord) (rest : List Event),
    s.inputs = .command a w :: rest → step s = .next t →
    t.sender = some a ∧ t.inputs = rest ∧ ∃ r, t.rsp = some r ∧
      ∀ i, decode w = .command i →
        match i with
        | .cfgsync _ _ | .dropsync | .ingest _ => r.d = 0#32
        | .consume _ | .randbyte => r.d.toNat < 256
        | .avail | .randmax _ | .randrange _ _ => True

/-! ## The machine as a whole -/

/-- `syncLength <= 32`; `syncLength = 0` forces `acquired`; `readCursor <= writeCursor <= CAPACITY`: each holds
after reset, with any configuration and power-up store, and every step keeps each, the third where `CAPACITY` is
legal (00_scope.md R7: a store of no bytes is no configuration) (10_state.md R32, R33, R35; the reset values are the
spec's own decision D6). -/
def Obligations.LengthFlagAndCursorInvariantsHold : Prop :=
  (∀ s t : State, step s = .next t →
    (s.block.syncLength.toNat ≤ 32 → t.block.syncLength.toNat ≤ 32) ∧
    ((s.block.syncLength.toNat = 0 → s.block.acquired = true) →
      t.block.syncLength.toNat = 0 → t.block.acquired = true) ∧
    (s.cfg.wf = true → s.block.readCursor ≤ s.block.writeCursor ∧ s.block.writeCursor ≤ s.cfg.capacity →
      t.block.readCursor ≤ t.block.writeCursor ∧ t.block.writeCursor ≤ t.cfg.capacity)) ∧
  ∀ (cfg : Config) (storage : Memory),
    (State.powerUp cfg storage).block.syncLength.toNat = 0 ∧
    (State.powerUp cfg storage).block.acquired = true ∧
    (State.powerUp cfg storage).block.readCursor = 0 ∧ (State.powerUp cfg storage).block.writeCursor = 0

/-- Every step keeps the whole invariant: the fields of 10_state.md R32 to R36, a legal configuration, and the
store in canonical form with no index outside `0 .. CAPACITY - 1` (20_memory.md R45). The canonical form is the
model's own (log 2). -/
def Obligations.EveryStepKeepsTheInvariant : Prop :=
  ∀ s t : State, s.Inv → step s = .next t → t.Inv

/-- The invariant holds right after reset, for the model's reset state and for every legal configuration and
power-up store (10_state.md section 4 and R42, decision D6). -/
def Obligations.TheInvariantHoldsAtReset : Prop :=
  State.reset.Inv ∧
  ∀ (cfg : Config) (storage : Memory), cfg.wf = true → storage.wf = true →
    storage.within cfg.capacity = true → (State.powerUp cfg storage).Inv

/-- From every state, also one no run reaches, a step answers a next state, whatever the next event is, and a
command leaves a response: there is no fault and no refusal (60_exceptions.md R113, decision D25; 00_scope.md R6).
That the response port stands in State is the model's choice (log 5). -/
def Obligations.NoStepStops : Prop :=
  ∀ s : State, ∃ t, step s = .next t ∧
    ∀ (a : Agent) (w : CmdWord) (rest : List Event), s.inputs = .command a w :: rest → ∃ r, t.rsp = some r

/-- Only the fields the table of 10_state.md R40 marks with W change, command by command; and no step changes the
configuration (R43; the spec's own decisions D9, D11 and D15). -/
def Obligations.OnlyTheListedFieldsAreWritten : Prop :=
  (∀ s t : State, step s = .next t → t.cfg = s.cfg) ∧
  ∀ (s t : State) (i : Instr), exec i s = .next t →
    match i with
    | .cfgsync _ length =>
      t.block = { s.block with
        syncWord := t.block.syncWord, syncMask := t.block.syncMask, syncLength := t.block.syncLength
        acquired := t.block.acquired } ∧ (length ≠ 0 → t.block.acquired = s.block.acquired)
    | .dropsync =>
      t.block = { s.block with shiftRegister := t.block.shiftRegister, acquired := t.block.acquired } ∧
      (s.block.syncLength.toNat = 0 → t.block = s.block)
    | .ingest _ =>
      if s.block.acquired = true then
        t.block = { s.block with
          storage := t.block.storage, writeCursor := t.block.writeCursor, readCursor := t.block.readCursor
          bitCursor := t.block.bitCursor } ∧
        (s.block.writeCursor ≠ s.cfg.capacity → t.block.readCursor = s.block.readCursor)
      else
        t.block = { s.block with
          shiftRegister := t.block.shiftRegister, acquired := t.block.acquired
          writeCursor := t.block.writeCursor, readCursor := t.block.readCursor
          bitCursor := t.block.bitCursor } ∧
        (t.block.acquired = false → t.block = { s.block with shiftRegister := t.block.shiftRegister })
    | .consume drop =>
      t.block = { s.block with
        shiftRegister := t.block.shiftRegister, acquired := t.block.acquired
        readCursor := t.block.readCursor } ∧
      (drop = false ∨ s.block.syncLength.toNat = 0 →
        t.block = { s.block with readCursor := t.block.readCursor })
    | .avail | .randmax _ | .randrange _ _ | .randbyte => t.block = s.block

/-- Frame of the store: no command but a packing INGEST changes any byte, a failed or seeking INGEST included, and
a packing INGEST changes only the byte at the write cursor that `makeRoom` gives it (20_memory.md R47, R57;
41_bit_ingest.md R88, R93, the spec's own decisions D13 and D14). -/
def Obligations.OnlyTheByteAtTheWriteCursorIsStored : Prop :=
  ∀ (s t : State) (i : Instr), exec i s = .next t → s.block.storage.wf = true →
    match i with
    | .ingest _ =>
      (s.block.acquired = false ∨ s.block.makeRoom s.cfg = none →
        ∀ a, t.block.storage.read a = s.block.storage.read a) ∧
      (∀ b, s.block.acquired = true → s.block.makeRoom s.cfg = some b →
        ∀ a, a ≠ b.writeCursor → t.block.storage.read a = s.block.storage.read a)
    | .cfgsync _ _ | .dropsync | .avail | .consume _ | .randmax _ | .randrange _ _ | .randbyte =>
      ∀ a, t.block.storage.read a = s.block.storage.read a

/-- No step overwrites an unread byte, and a complete byte stays as it is until the cursors are reset: only an
INGEST that finds the store full and drained, and so rewinds it, writes below `writeCursor` (10_state.md R37;
41_bit_ingest.md R93, the spec's own decisions D13 and D14). -/
def Obligations.UnreadBytesAreNeverOverwritten : Prop :=
  ∀ s t : State, s.Inv → step s = .next t →
    (∀ i, s.block.readCursor ≤ i → i < s.block.writeCursor →
      t.block.storage.read i = s.block.storage.read i) ∧
    (¬ (s.block.acquired = true ∧ s.block.writeCursor = s.cfg.capacity ∧
        s.block.readCursor = s.block.writeCursor ∧
        ∃ a w rest bit, s.inputs = .command a w :: rest ∧ decode w = .command (.ingest bit)) →
      ∀ i, i < s.block.writeCursor → t.block.storage.read i = s.block.storage.read i)

/-- The unread bytes form a queue: an INGEST that completes a byte appends one at the end, a CONSUME removes the
first and answers it, an acquisition and a RESET empty it, and nothing else changes it (10_state.md R37;
20_memory.md R51; 41_bit_ingest.md R89, R92; 42_consumer.md R99; the spec's own decisions D11, D13, D14 and D16 for
the corners). -/
def Obligations.UnreadBytesFormAQueue : Prop :=
  ∀ (s t : State) (e : Event) (rest : List Event), s.Inv → s.inputs = e :: rest → step s = .next t →
    match e with
    | .reset => t.block.unread = []
    | .command _ w =>
      match decode w with
      | .command (.ingest _) =>
        if s.block.acquired = true then
          (if s.block.bitCursor = 7 then ∃ v, t.block.unread = s.block.unread ++ [v]
            else t.block.unread = s.block.unread)
        else t.block.unread = if t.block.acquired = true then [] else s.block.unread
      | .command (.consume _) =>
        match s.block.unread with
        | [] => t.block.unread = [] ∧ t.rsp = some ⟨.bufferEmpty, 0#32⟩
        | v :: others => t.block.unread = others ∧ t.rsp = some ⟨.ok, v.zeroExtend 32⟩
      | .command .avail =>
        t.block.unread = s.block.unread ∧ t.rsp = some ⟨.ok, BitVec.ofNat 32 s.block.unread.length⟩
      | _ => t.block.unread = s.block.unread

/-- Nothing a command can read depends on the content of the store at power-up or on stale bits: two machines that
agree but for those go on agreeing, response and all (10_state.md R38, R39, R42). -/
def Obligations.StaleBitsAreNeverObservable : Prop :=
  ∀ s s' t : State, s.Inv → s'.Inv → s.Agree s' → step s = .next t →
    ∃ t', step s' = .next t' ∧ t.Agree t'

/-- Feeding bytes most significant bit first to a packing block at a byte boundary, with room for them all, stores
exactly those bytes at rising indices (with `IDENTITY`, each with its bits mirrored: the spec's own decision D17),
and changes no other byte (20_memory.md R50, R51; 41_bit_ingest.md R92, R97, decision D12). -/
def Obligations.FedBytesAreStoredInOrder : Prop :=
  ∀ (s : State) (bs : List Byte) (rest : List Event),
    s.block.acquired = true → s.block.bitCursor = 0 → s.block.storage.wf = true →
    s.block.writeCursor + bs.length ≤ s.cfg.capacity → s.inputs = Event.feedBytes bs ++ rest →
    ∃ t : State, Sys2Proof.core.run (8 * bs.length) s = .next t ∧ t.inputs = rest ∧
      t.block = { s.block with
        storage := t.block.storage, writeCursor := s.block.writeCursor + bs.length } ∧
      (∀ k (h : k < bs.length), ∀ j, j < 8 →
        (t.block.storage.read (s.block.writeCursor + k)).getLsbD j =
          bs[k].getLsbD (match s.cfg.xform with | .reverse8 => j | .identity => 7 - j)) ∧
      (∀ i, i < s.block.writeCursor ∨ s.block.writeCursor + bs.length ≤ i →
        t.block.storage.read i = s.block.storage.read i)

/-- From an empty packing block, bytes fed most significant bit first and then taken with CONSUME come out in the
order and with the value they went in: response number `k` holds byte `k` (20_memory.md R50, R51; 41_bit_ingest.md
R97, decision D12; 42_consumer.md R99). That the response port and the sender it answers stand in State is the
model's choice (log 5). -/
def Obligations.TheConsumerReadsWhatTheProducerSent : Prop :=
  ∀ (s : State) (bs : List Byte) (rest : List Event),
    s.cfg.xform = .reverse8 → s.block.acquired = true → s.block.storage.wf = true →
    s.block.writeCursor = 0 → s.block.readCursor = 0 → s.block.bitCursor = 0 →
    bs.length ≤ s.cfg.capacity →
    s.inputs = Event.feedBytes bs ++
      (List.replicate bs.length (.command .consumer (encode (.consume false))) ++ rest) →
    ∀ k (h : k < bs.length), ∃ t : State, Sys2Proof.core.run (8 * bs.length + (k + 1)) s = .next t ∧
      t.rsp = some ⟨.ok, bs[k].zeroExtend 32⟩ ∧ t.sender = some .consumer

/-- Exactly `CAPACITY * 8` bits after an acquisition are packed without overflow, every response `OK`, and the next
bit, nothing consumed, gives `OVERFLOW` and changes nothing (41_bit_ingest.md R93, decision D13;
95_test_vectors.md S8). -/
def Obligations.CapacityTimesEightBitsFitAndTheNextOverflows : Prop :=
  ∀ (s : State) (bs : List Byte) (bit : Bool) (rest : List Event),
    s.block.acquired = true → s.block.storage.wf = true →
    s.block.writeCursor = 0 → s.block.readCursor = 0 → s.block.bitCursor = 0 →
    1 ≤ s.cfg.capacity → bs.length = s.cfg.capacity →
    s.inputs = Event.feedBytes bs ++ (Event.bit bit :: rest) →
    (∀ k, 1 ≤ k → k ≤ 8 * s.cfg.capacity →
      ∃ u : State, Sys2Proof.core.run k s = .next u ∧ u.rsp = some ⟨.ok, 0#32⟩) ∧
    ∃ t u : State, Sys2Proof.core.run (8 * s.cfg.capacity) s = .next t ∧
      Sys2Proof.core.run (8 * s.cfg.capacity + 1) s = .next u ∧
      t.block.writeCursor = s.cfg.capacity ∧ u.rsp = some ⟨.overflow, 0#32⟩ ∧ u.block = t.block

/-- A sync word whose bit `syncLength - 1` is 1, fed most significant bit first to a seeking block with an empty
window, acquires at its last bit and not before, and all three cursors are 0 there (20_memory.md R53;
41_bit_ingest.md R88, R89; 70_reset_and_hazards.md R138; 95_test_vectors.md S3). -/
def Obligations.TheSyncWordAcquiresAtItsLastBit : Prop :=
  ∀ (s : State) (length : Nat) (rest : List Event),
    1 ≤ length → length ≤ 32 → s.block.acquired = false → s.block.shiftRegister = 0#32 →
    s.block.syncMask = lowMask length → s.block.syncWord.toNat < 2 ^ length →
    s.block.syncWord.getLsbD (length - 1) = true →
    s.inputs = (bitsMsbFirst s.block.syncWord length).map Event.bit ++ rest →
    (∀ k, k < length → ∃ t : State, Sys2Proof.core.run k s = .next t ∧ t.block.acquired = false) ∧
    ∃ t : State, Sys2Proof.core.run length s = .next t ∧ t.inputs = rest ∧
      t.block = { s.block with
        shiftRegister := s.block.syncWord, acquired := true
        writeCursor := 0, readCursor := 0, bitCursor := 0 }

/-- A sync word of all zeros acquires at the first 0 bit after a DROPSYNC, whatever its length: the zeros left in
the window count (70_reset_and_hazards.md R138). -/
def Obligations.AnAllZeroSyncWordAcquiresAtTheFirstZero : Prop :=
  ∀ (s t u : State), 0 < s.block.syncLength.toNat → s.block.syncWord = 0#32 →
    exec .dropsync s = .next t → exec (.ingest false) t = .next u →
    t.block.acquired = false ∧ u.block.acquired = true ∧ u.block.writeCursor = 0 ∧ u.block.readCursor = 0

/-- The flag `acquired` goes from 0 to 1 only by an INGEST that matches, by CFGSYNC with length 0, or by RESET, and
from 1 to 0 only by DROPSYNC, or a CONSUME with drop 1 that finds a byte, with `syncLength > 0`
(10_state.md R27; 40_sync_control.md R81, R85; 41_bit_ingest.md R89; the spec's own decisions D6, D9 and D16). -/
def Obligations.WhatSetsAndClearsTheFlag : Prop :=
  ∀ s t : State, step s = .next t →
    (s.block.acquired = false → t.block.acquired = true →
      (∃ rest, s.inputs = .reset :: rest) ∨
      ∃ a w rest, s.inputs = .command a w :: rest ∧
        ((∃ bit, decode w = .command (.ingest bit) ∧
            t.block.shiftRegister &&& s.block.syncMask = s.block.syncWord) ∨
          ∃ v, decode w = .command (.cfgsync v 0))) ∧
    (s.block.acquired = true → t.block.acquired = false →
      0 < s.block.syncLength.toNat ∧ ∃ a w rest, s.inputs = .command a w :: rest ∧
        (decode w = .command .dropsync ∨
          (decode w = .command (.consume true) ∧ s.block.readCursor ≠ s.block.writeCursor)))

/-- RESET: every field but the store at its reset value, the store, the configuration and the entropy source as
they were, no response (70_reset_and_hazards.md R131 to R133; 10_state.md R42; decisions D6 and D7; that the
entropy source is outside RESET is log 9). -/
def Obligations.ResetSetsEveryFieldButTheStore : Prop :=
  ∀ (s : State) (rest : List Event), s.inputs = .reset :: rest →
    step s = .next
      { cfg := s.cfg
        block :=
          { syncWord := 0#32, syncMask := 0#32, syncLength := 0#6, shiftRegister := 0#32, acquired := true
            storage := s.block.storage, writeCursor := 0, readCursor := 0, bitCursor := 0 }
        inputs := rest, sender := none, rsp := none, source := s.source }

/-- After a RESET at any moment the block is in pass-through mode and packing: eight bits, with no sync word, make
one byte at index 0 (70_reset_and_hazards.md R134; 10_state.md R42, decision D6). -/
def Obligations.EightBitsAfterResetMakeTheFirstByte : Prop :=
  ∀ (s : State) (v : Byte) (rest : List Event), s.Inv → s.cfg.xform = .reverse8 →
    s.inputs = .reset :: (Event.feedBytes [v] ++ rest) →
    ∃ t : State, Sys2Proof.core.run 9 s = .next t ∧ t.block.unread = [v] ∧ t.block.acquired = true ∧
      t.block.syncLength = 0#6 ∧ t.block.bitCursor = 0 ∧ t.block.shiftRegister = 0#32

/-- A step takes at most one command off the order, the next one, and leaves every agent's later commands in the
agent's own order (00_scope.md R4; 20_memory.md R61, decision D1; log 4). -/
def Obligations.EachAgentKeepsItsOwnOrder : Prop :=
  ∀ (s t : State) (a : Agent), step s = .next t →
    Event.wordsOf a s.inputs = Event.wordsOf a t.inputs ∨
    ∃ w, s.inputs = .command a w :: t.inputs ∧
      Event.wordsOf a s.inputs = w :: Event.wordsOf a t.inputs

/-- Under the software discipline only a producer's command or a RESET changes `writeCursor`, `bitCursor` or the
store, only a controller's command or a RESET changes the sync word, its mask or its length, and only the RNG
client's command changes the entropy source (10_state.md R40; 70_reset_and_hazards.md R139 to R141; 00_scope.md R5).
That the entropy source stands in State is log 6, that RESET leaves it as it is log 9, that a reserved word keeps the
discipline whoever sends it log 12: the model's choices. -/
def Obligations.DisciplinedAgentsAreTheOnlyWriters : Prop :=
  ∀ (s t : State) (e : Event) (rest : List Event),
    s.inputs = e :: rest → e.disciplined = true → step s = .next t →
    (t.block.writeCursor ≠ s.block.writeCursor ∨ t.block.bitCursor ≠ s.block.bitCursor ∨
        t.block.storage ≠ s.block.storage →
      e = .reset ∨ ∃ w, e = .command .producer w) ∧
    (t.block.syncWord ≠ s.block.syncWord ∨ t.block.syncMask ≠ s.block.syncMask ∨
        t.block.syncLength ≠ s.block.syncLength →
      e = .reset ∨ ∃ w, e = .command .controller w) ∧
    (t.source ≠ s.source → ∃ w, e = .command .rngClient w)

/-! ## The byte store -/

/-- A write keeps the canonical form and is read back, every other byte as it was; two canonical stores that read
alike are the same data (20_memory.md R46; the canonical form is the model's own, log 2). -/
def Obligations.StoreReadsBackWhatWasWritten : Prop :=
  (∀ (m : Memory) (i : Nat) (v : Byte), m.wf = true →
    (m.write i v).wf = true ∧ (m.write i v).read i = v ∧
    ∀ k, k ≠ i → (m.write i v).read k = m.read k) ∧
  (∀ m n : Memory, m.wf = true → n.wf = true → (∀ i, m.read i = n.read i) → m = n)
end

