-- ==== Sys2Proof/Laws/State.lean ====
section
/-! SUPPORT. One lemma per field per update of the state, true by rfl. -/

namespace Sys2Proof.Machine

section Respond
variable (s : State) (b : Block) (st : Status) (d : Word) (src : Source)

@[simp] theorem respond_cfg : (s.respond b st d).cfg = s.cfg := rfl
@[simp] theorem respond_block : (s.respond b st d).block = b := rfl
@[simp] theorem respond_inputs : (s.respond b st d).inputs = s.inputs := rfl
@[simp] theorem respond_sender : (s.respond b st d).sender = s.sender := rfl
@[simp] theorem respond_rsp : (s.respond b st d).rsp = some ⟨st, d⟩ := rfl
@[simp] theorem respond_source : (s.respond b st d).source = s.source := rfl

@[simp] theorem fail_cfg : (s.fail st).cfg = s.cfg := rfl
@[simp] theorem fail_block : (s.fail st).block = s.block := rfl
@[simp] theorem fail_inputs : (s.fail st).inputs = s.inputs := rfl
@[simp] theorem fail_sender : (s.fail st).sender = s.sender := rfl
@[simp] theorem fail_rsp : (s.fail st).rsp = some ⟨st, 0x00000000#32⟩ := rfl
@[simp] theorem fail_source : (s.fail st).source = s.source := rfl

@[simp] theorem succeed_cfg : (s.succeed b d).cfg = s.cfg := rfl
@[simp] theorem succeed_block : (s.succeed b d).block = b := rfl
@[simp] theorem succeed_inputs : (s.succeed b d).inputs = s.inputs := rfl
@[simp] theorem succeed_sender : (s.succeed b d).sender = s.sender := rfl
@[simp] theorem succeed_rsp : (s.succeed b d).rsp = some ⟨.ok, d⟩ := rfl
@[simp] theorem succeed_source : (s.succeed b d).source = s.source := rfl

@[simp] theorem succeedDrawn_cfg : (s.succeedDrawn d src).cfg = s.cfg := rfl
@[simp] theorem succeedDrawn_block : (s.succeedDrawn d src).block = s.block := rfl
@[simp] theorem succeedDrawn_inputs : (s.succeedDrawn d src).inputs = s.inputs := rfl
@[simp] theorem succeedDrawn_sender : (s.succeedDrawn d src).sender = s.sender := rfl
@[simp] theorem succeedDrawn_rsp : (s.succeedDrawn d src).rsp = some ⟨.ok, d⟩ := rfl
@[simp] theorem succeedDrawn_source : (s.succeedDrawn d src).source = src := rfl

end Respond

section Events
variable (s : State) (a : Agent) (w : CmdWord) (rest : List Event)

@[simp] theorem accept_cfg : (s.accept a rest).cfg = s.cfg := rfl
@[simp] theorem accept_block : (s.accept a rest).block = s.block := rfl
@[simp] theorem accept_inputs : (s.accept a rest).inputs = rest := rfl
@[simp] theorem accept_sender : (s.accept a rest).sender = some a := rfl
@[simp] theorem accept_rsp : (s.accept a rest).rsp = s.rsp := rfl
@[simp] theorem accept_source : (s.accept a rest).source = s.source := rfl

@[simp] theorem performReset_cfg : (s.performReset rest).cfg = s.cfg := rfl
@[simp] theorem performReset_block : (s.performReset rest).block = Block.afterReset s.block.storage := rfl
@[simp] theorem performReset_inputs : (s.performReset rest).inputs = rest := rfl
@[simp] theorem performReset_sender : (s.performReset rest).sender = none := rfl
@[simp] theorem performReset_rsp : (s.performReset rest).rsp = none := rfl
@[simp] theorem performReset_source : (s.performReset rest).source = s.source := rfl

@[simp] theorem arrive_cfg : (s.arrive a w).cfg = s.cfg := rfl
@[simp] theorem arrive_block : (s.arrive a w).block = s.block := rfl
@[simp] theorem arrive_inputs : (s.arrive a w).inputs = .command a w :: s.inputs := rfl
@[simp] theorem arrive_sender : (s.arrive a w).sender = s.sender := rfl
@[simp] theorem arrive_rsp : (s.arrive a w).rsp = s.rsp := rfl
@[simp] theorem arrive_source : (s.arrive a w).source = s.source := rfl

end Events

section Detector
variable (b : Block) (v : Word) (l : Nat)

@[simp] theorem configure_syncWord : (b.configure v l).syncWord = v := rfl
@[simp] theorem configure_syncMask : (b.configure v l).syncMask = lowMask l := rfl
@[simp] theorem configure_syncLength : (b.configure v l).syncLength = BitVec.ofNat 6 l := rfl
@[simp] theorem configure_shiftRegister : (b.configure v l).shiftRegister = b.shiftRegister := rfl
@[simp] theorem configure_acquired : (b.configure v l).acquired = b.acquiredAfterConfigure l := rfl
@[simp] theorem configure_storage : (b.configure v l).storage = b.storage := rfl
@[simp] theorem configure_writeCursor : (b.configure v l).writeCursor = b.writeCursor := rfl
@[simp] theorem configure_readCursor : (b.configure v l).readCursor = b.readCursor := rfl
@[simp] theorem configure_bitCursor : (b.configure v l).bitCursor = b.bitCursor := rfl

@[simp] theorem acquire_syncWord : b.acquire.syncWord = b.syncWord := rfl
@[simp] theorem acquire_syncMask : b.acquire.syncMask = b.syncMask := rfl
@[simp] theorem acquire_syncLength : b.acquire.syncLength = b.syncLength := rfl
@[simp] theorem acquire_shiftRegister : b.acquire.shiftRegister = b.shiftRegister := rfl
@[simp] theorem acquire_acquired : b.acquire.acquired = true := rfl
@[simp] theorem acquire_storage : b.acquire.storage = b.storage := rfl
@[simp] theorem acquire_writeCursor : b.acquire.writeCursor = 0 := rfl
@[simp] theorem acquire_readCursor : b.acquire.readCursor = 0 := rfl
@[simp] theorem acquire_bitCursor : b.acquire.bitCursor = 0 := rfl

@[simp] theorem rewind_syncWord : b.rewind.syncWord = b.syncWord := rfl
@[simp] theorem rewind_syncMask : b.rewind.syncMask = b.syncMask := rfl
@[simp] theorem rewind_syncLength : b.rewind.syncLength = b.syncLength := rfl
@[simp] theorem rewind_shiftRegister : b.rewind.shiftRegister = b.shiftRegister := rfl
@[simp] theorem rewind_acquired : b.rewind.acquired = b.acquired := rfl
@[simp] theorem rewind_storage : b.rewind.storage = b.storage := rfl
@[simp] theorem rewind_writeCursor : b.rewind.writeCursor = 0 := rfl
@[simp] theorem rewind_readCursor : b.rewind.readCursor = 0 := rfl
@[simp] theorem rewind_bitCursor : b.rewind.bitCursor = b.bitCursor := rfl

end Detector

section DropSync
variable (b : Block)

@[simp] theorem dropSync_syncWord : b.dropSync.syncWord = b.syncWord := by unfold Block.dropSync; split <;> rfl
@[simp] theorem dropSync_syncMask : b.dropSync.syncMask = b.syncMask := by unfold Block.dropSync; split <;> rfl
@[simp] theorem dropSync_syncLength : b.dropSync.syncLength = b.syncLength := by
  unfold Block.dropSync; split <;> rfl
@[simp] theorem dropSync_storage : b.dropSync.storage = b.storage := by unfold Block.dropSync; split <;> rfl
@[simp] theorem dropSync_writeCursor : b.dropSync.writeCursor = b.writeCursor := by
  unfold Block.dropSync; split <;> rfl
@[simp] theorem dropSync_readCursor : b.dropSync.readCursor = b.readCursor := by
  unfold Block.dropSync; split <;> rfl
@[simp] theorem dropSync_bitCursor : b.dropSync.bitCursor = b.bitCursor := by
  unfold Block.dropSync; split <;> rfl
/-- DROPSYNC is a no-op in pass-through mode (40_sync_control.md R85). -/
theorem dropSync_of_zero (h : b.syncLength = 0#6) : b.dropSync = b := if_pos h
/-- DROPSYNC outside pass-through mode (40_sync_control.md R85). -/
theorem dropSync_of_pos (h : b.syncLength ≠ 0#6) :
    b.dropSync = { b with acquired := false, shiftRegister := 0x00000000#32 } := if_neg h
/-- DROPSYNC sent twice is DROPSYNC sent once (40_sync_control.md R85). -/
theorem dropSync_dropSync : b.dropSync.dropSync = b.dropSync := by
  by_cases h : b.syncLength = 0#6
  · rw [dropSync_of_zero b h, dropSync_of_zero b h]
  · rw [dropSync_of_pos b h]; exact if_neg h

end DropSync

section Reset
variable (m : Memory)

@[simp] theorem afterReset_storage : (Block.afterReset m).storage = m := rfl
@[simp] theorem afterReset_acquired : (Block.afterReset m).acquired = true := rfl
@[simp] theorem afterReset_syncLength : (Block.afterReset m).syncLength = 0#6 := rfl
@[simp] theorem afterReset_syncMask : (Block.afterReset m).syncMask = 0x00000000#32 := rfl
@[simp] theorem afterReset_syncWord : (Block.afterReset m).syncWord = 0x00000000#32 := rfl
@[simp] theorem afterReset_shiftRegister : (Block.afterReset m).shiftRegister = 0x00000000#32 := rfl
@[simp] theorem afterReset_writeCursor : (Block.afterReset m).writeCursor = 0 := rfl
@[simp] theorem afterReset_readCursor : (Block.afterReset m).readCursor = 0 := rfl
@[simp] theorem afterReset_bitCursor : (Block.afterReset m).bitCursor = 0 := rfl

end Reset

end Sys2Proof.Machine
end

