-- ==== Sys2Proof/Laws/Memory.lean ====
section
/-! SUPPORT. The byte store: read after write, the canonical form kept, equal stores equal data. -/

namespace Sys2Proof.Machine

/-- An index below every listed one reads as unlisted. -/
theorem Memory.read_below (m : Memory) (i : Nat) (h : m.all (fun c => decide (i < c.1)) = true) :
    m.read i = Memory.unlisted i := by
  induction m with
  | nil => rfl
  | cons c m ih =>
    obtain ⟨j, v⟩ := c
    simp only [List.all_cons, Bool.and_eq_true, decide_eq_true_eq] at h
    rw [Memory.read, if_neg (by omega), ih h.2]

/-- The canonical form of a non-empty store, taken apart. -/
theorem Memory.wf_cons (i : Nat) (v : Byte) (m : Memory) :
    Memory.wf ((i, v) :: m) = true ↔
      v ≠ Memory.unlisted i ∧ m.all (fun c => decide (i < c.1)) = true ∧ Memory.wf m = true := by
  simp only [Memory.wf, Bool.and_eq_true, decide_eq_true_eq, and_assoc]

/-- A lower bound on the listed indices survives a write at or above it. -/
theorem Memory.all_write (m : Memory) (i k : Nat) (v : Byte) (hk : k < i)
    (h : m.all (fun c => decide (k < c.1)) = true) :
    (m.write i v).all (fun c => decide (k < c.1)) = true := by
  induction m with
  | nil => unfold Memory.write; split <;> simp [hk]
  | cons c m ih =>
    obtain ⟨j, u⟩ := c
    simp only [List.all_cons, Bool.and_eq_true, decide_eq_true_eq] at h
    have ih' := ih h.2
    unfold Memory.write
    split_ifs <;> (try simp only [List.all_cons, Bool.and_eq_true, decide_eq_true_eq]) <;> tauto

/-- A write keeps the canonical form. -/
theorem Memory.write_wf (m : Memory) (i : Nat) (v : Byte) (h : m.wf = true) : (m.write i v).wf = true := by
  induction m with
  | nil =>
    unfold Memory.write
    split
    · rfl
    · exact (Memory.wf_cons i v []).2 ⟨‹_›, rfl, rfl⟩
  | cons c m ih =>
    obtain ⟨j, u⟩ := c
    obtain ⟨hu, hall, hm⟩ := (Memory.wf_cons j u m).1 h
    unfold Memory.write
    split_ifs with h1 h2 h3 h4
    · exact h
    · refine (Memory.wf_cons _ _ _).2 ⟨h2, ?_, h⟩
      simp only [List.all_cons, Bool.and_eq_true, decide_eq_true_eq]
      refine ⟨h1, List.all_eq_true.2 fun c hc => ?_⟩
      have := List.all_eq_true.1 hall c hc
      simp only [decide_eq_true_eq] at this ⊢
      omega
    · exact hm
    · subst h3
      exact (Memory.wf_cons _ _ _).2 ⟨h4, hall, hm⟩
    · exact (Memory.wf_cons _ _ _).2 ⟨hu, Memory.all_write m i j v (by omega) hall, ih hm⟩

/-- Read after write: the byte written there, every other byte as it was. -/
theorem Memory.read_write (m : Memory) (i : Nat) (v : Byte) (k : Nat) (h : m.wf = true) :
    (m.write i v).read k = if k = i then v else m.read k := by
  induction m with
  | nil =>
    by_cases hv : v = Memory.unlisted i
    · by_cases hk : k = i
      · subst hk; simp [Memory.write, Memory.read, hv]
      · simp [Memory.write, Memory.read, hv, hk]
    · by_cases hk : k = i
      · subst hk; simp [Memory.write, Memory.read, hv]
      · rw [Memory.write, if_neg hv, if_neg hk]
        exact if_neg fun e : i = k => hk e.symm
  | cons c m ih =>
    obtain ⟨j, u⟩ := c
    obtain ⟨-, hall, hm⟩ := (Memory.wf_cons j u m).1 h
    have hbelow : ∀ n, n ≤ j → Memory.read m n = Memory.unlisted n := fun n hn =>
      Memory.read_below m n (List.all_eq_true.2 fun c hc => by
        have := List.all_eq_true.1 hall c hc
        simp only [decide_eq_true_eq] at this ⊢
        omega)
    rcases Nat.lt_trichotomy i j with hij | rfl | hij
    · rw [Memory.write, if_pos hij]
      split_ifs with hv hk hk
      · subst hk
        rw [Memory.read, if_neg (by omega), hbelow k (by omega), hv]
      · rfl
      · rw [Memory.read, if_pos hk.symm]
      · rw [Memory.read, if_neg (fun e => hk e.symm)]
    · rw [Memory.write, if_neg (lt_irrefl i), if_pos rfl]
      split_ifs with hv hk hk
      · subst hk
        rw [hbelow k le_rfl, hv]
      · rw [Memory.read, if_neg (fun e => hk e.symm)]
      · rw [Memory.read, if_pos hk.symm]
      · simp only [Memory.read, if_neg (fun e : i = k => hk e.symm)]
    · rw [Memory.write, if_neg (by omega), if_neg (by omega), Memory.read, ih hm, Memory.read]
      by_cases hk : j = k
      · rw [if_pos hk, if_pos hk, if_neg (by omega)]
      · rw [if_neg hk, if_neg hk]

/-- A write below `CAPACITY` lists no index outside the store. -/
theorem Memory.write_within (m : Memory) (i n : Nat) (v : Byte) (hi : i < n) (h : m.within n = true) :
    (m.write i v).within n = true := by
  unfold Memory.within at *
  induction m with
  | nil => unfold Memory.write; split <;> simp [hi]
  | cons c m ih =>
    obtain ⟨j, u⟩ := c
    simp only [List.all_cons, Bool.and_eq_true, decide_eq_true_eq] at h
    have ih' := ih h.2
    unfold Memory.write
    split_ifs <;> (try simp only [List.all_cons, Bool.and_eq_true, decide_eq_true_eq]) <;> tauto

/-- Equal stores are equal data: canonical stores that read alike are the same list. -/
theorem Memory.ext_of_read (m n : Memory) (hm : m.wf = true) (hn : n.wf = true)
    (h : ∀ i, m.read i = n.read i) : m = n := by
  induction m generalizing n with
  | nil =>
    cases n with
    | nil => rfl
    | cons c n =>
      obtain ⟨j, u⟩ := c
      have := h j
      simp only [Memory.read, if_true] at this
      exact absurd this.symm ((Memory.wf_cons j u n).1 hn).1
  | cons c m ih =>
    obtain ⟨i, v⟩ := c
    obtain ⟨hv, hall, hm'⟩ := (Memory.wf_cons i v m).1 hm
    cases n with
    | nil =>
      have := h i
      simp only [Memory.read, if_true] at this
      exact absurd this hv
    | cons c n =>
      obtain ⟨j, u⟩ := c
      obtain ⟨hu, hall', hn'⟩ := (Memory.wf_cons j u n).1 hn
      have key : ∀ (a b : Nat) (x y : Byte) (p q : Memory), x ≠ Memory.unlisted a →
          q.all (fun c => decide (b < c.1)) = true →
          Memory.read ((a, x) :: p) a = Memory.read ((b, y) :: q) a → b ≤ a := by
        intro a b x y p q hx hq heq
        by_contra hlt
        simp only [Memory.read, if_true] at heq
        rw [if_neg (by omega), Memory.read_below q a] at heq
        · exact hx heq
        · refine List.all_eq_true.2 fun c hc => ?_
          have := List.all_eq_true.1 hq c hc
          simp only [decide_eq_true_eq] at this ⊢
          omega
      have hij : i = j := by
        have h1 := key i j v u m n hv hall' (h i)
        have h2 := key j i u v n m hu hall (h j).symm
        omega
      subst hij
      have hvu : v = u := by simpa [Memory.read] using h i
      subst hvu
      congr 1
      refine ih n hm' hn' fun k => ?_
      by_cases hk : k = i
      · subst hk
        rw [Memory.read_below m k hall, Memory.read_below n k hall']
      · have := h k
        simpa only [Memory.read, if_neg (fun e : i = k => hk e.symm)] using this

/-- Power-up memory is canonical. -/
theorem reset_storage_wf : State.reset.block.storage.wf = true := rfl

end Sys2Proof.Machine
end

