-- ==== Sys2Proof/Laws/Primitives.lean ====
section
/-! SUPPORT. The primitives of 00_scope.md section 7: one lemma for what each computes. -/

namespace Sys2Proof

/-- `s32` is the two's-complement reading. -/
theorem s32_eq_toInt (v : Word) : s32 v = v.toInt := by
  have hv := v.isLt
  have hm : v.getLsbD 31 = v.msb := by rw [BitVec.msb_eq_getLsbD_last]
  unfold s32
  rw [hm, BitVec.msb_eq_decide, BitVec.toInt_eq_toNat_cond]
  by_cases h : 2 ^ (32 - 1) ≤ v.toNat
  · rw [if_pos (by simpa using h), if_neg (by omega)]; norm_num
  · rw [if_neg (by simpa using h), if_pos (by omega)]

theorem inS32_iff (i : Int) : inS32 i = true ↔ -2147483648 ≤ i ∧ i ≤ 2147483647 := by
  simp [inS32]

/-- `s32(v)` is in the signed range. -/
theorem inS32_s32 (v : Word) : inS32 (s32 v) = true := by
  rw [s32_eq_toInt, inS32_iff]
  have h1 := BitVec.le_toInt v
  have h2 := BitVec.toInt_lt (x := v)
  norm_num at h1 h2
  omega

/-- `s32(u32(i)) = i` on the signed range (R15). -/
theorem s32_u32 (i : Int) (h : inS32 i = true) : s32 (u32 i) = i := by
  rw [inS32_iff] at h
  rw [s32_eq_toInt, u32, BitVec.toInt_ofInt, Int.bmod_eq_of_le] <;> norm_num <;> omega

/-- `u32(s32(v)) = v` (R15). -/
theorem u32_s32 (v : Word) : u32 (s32 v) = v := by
  rw [s32_eq_toInt, u32, BitVec.ofInt_toInt]

namespace Machine

/-- `Wrap32` is the identity on the signed range (R17). -/
theorem wrap32_of_inS32 (i : Int) (h : inS32 i = true) : wrap32 i = i := s32_u32 i h

theorem wrap32_eq_bmod (i : Int) : wrap32 i = i.bmod 4294967296 := by
  rw [wrap32, s32_eq_toInt, u32, BitVec.toInt_ofInt]

/-- Bit `k` of `LowMask(n)` (R11). -/
theorem lowMask_getLsbD (n k : Nat) (h : n ≤ 32) : (lowMask n).getLsbD k = decide (k < n) := by
  unfold lowMask
  rw [BitVec.getLsbD_ofNat, Nat.testBit_two_pow_sub_one]
  by_cases hk : k < n
  · simp [hk]; omega
  · simp [hk]

theorem lowMask_toNat (n : Nat) (h : n ≤ 32) : (lowMask n).toNat = 2 ^ n - 1 := by
  unfold lowMask
  rw [BitVec.toNat_ofNat, Nat.mod_eq_of_lt]
  have := Nat.pow_le_pow_right (n := 2) (by norm_num) h
  have := Nat.two_pow_pos n
  omega

/-- The low `n` bits (R11). -/
theorem and_lowMask_toNat (v : Word) (n : Nat) (h : n ≤ 32) : (v &&& lowMask n).toNat = v.toNat % 2 ^ n := by
  rw [BitVec.toNat_and, lowMask_toNat n h, Nat.and_two_pow_sub_one_eq_mod]

/-- `ShiftIn` as arithmetic (R12). -/
theorem shiftIn_toNat (sr : Word) (bit : Bool) :
    (shiftIn sr bit).toNat = (2 * sr.toNat + bit.toNat) % 4294967296 := by
  have : shiftIn sr bit = (sr <<< 1) + (BitVec.ofBool bit).setWidth 32 := by
    rw [BitVec.add_eq_or_of_and_eq_zero]
    · rfl
    · ext i hi
      cases i <;> simp
  rw [this]
  cases bit <;> simp [Nat.shiftLeft_eq] <;> omega

/-- Bit `i` of `Reverse8(v)` is bit `7 - i` of `v` (R13). -/
theorem reverse8_getLsbD (v : Byte) (i : Nat) (h : i < 8) : (reverse8 v).getLsbD i = v.getLsbD (7 - i) := by
  unfold reverse8
  rw [BitVec.getLsbD_ofFnLE]
  simp [h]

/-- `Reverse8(Reverse8(v)) = v` (R13). -/
theorem reverse8_reverse8 (v : Byte) : reverse8 (reverse8 v) = v := by
  apply BitVec.eq_of_getLsbD_eq
  intro i h
  rw [reverse8_getLsbD _ _ h, reverse8_getLsbD _ _ (by omega)]
  congr 1
  omega

/-- Bit `j` after `putBit` at `k` (41_bit_ingest.md R90). -/
theorem putBit_getLsbD (old : Byte) (k : Fin 8) (bit : Bool) (j : Nat) (h : j < 8) :
    (putBit old k bit).getLsbD j = if j = k.val then bit else old.getLsbD j := by
  have hk := k.isLt
  unfold putBit
  by_cases e : j = k.val
  · subst e
    cases bit <;> simp [h]
  · cases bit <;> simp [h, e] <;> omega

/-- `GuardedAbs` lands in `0 .. 2^31 - 1` (R16). -/
theorem guardedAbs_range (i : Int) (h : inS32 i = true) : 0 ≤ guardedAbs i ∧ guardedAbs i ≤ 2147483647 := by
  rw [inS32_iff] at h
  unfold guardedAbs
  split_ifs <;> omega

/-- `TruncRem` is the truncated remainder (R19). -/
theorem truncRem_eq_tmod (a m : Int) : truncRem a m = a.tmod m := by
  have := Int.mul_tdiv_add_tmod a m
  unfold truncRem
  omega

/-- For a non-negative dividend the result is the remainder by `|m|` (R19). -/
theorem truncRem_eq_emod (a m : Int) (h : 0 ≤ a) : truncRem a m = a % (m.natAbs : Int) := by
  rw [truncRem_eq_tmod, Int.tmod_eq_emod_of_nonneg h, Int.natCast_natAbs, Int.emod_abs]

/-- The range of the truncated remainder (R19). -/
theorem truncRem_range (a m : Int) (h : 0 ≤ a) (hm : m ≠ 0) :
    0 ≤ truncRem a m ∧ truncRem a m < (m.natAbs : Int) ∧ truncRem a m ≤ a := by
  rw [truncRem_eq_emod a m h]
  have hp : (0 : Int) < m.natAbs := by omega
  have hq := mul_nonneg hp.le (Int.ediv_nonneg h hp.le)
  have := Int.mul_ediv_add_emod a m.natAbs
  exact ⟨Int.emod_nonneg _ (by omega), Int.emod_lt_of_pos _ hp, by omega⟩

end Machine

end Sys2Proof
end

