-- ==== Sys2Proof/Laws/Decode.lean ====
section
/-! SUPPORT. The fields of a command word, what each opcode decodes to, and a word from its fields. -/

namespace Sys2Proof

theorem opField_packFields (op : BitVec 8) (a b : Word) : opField (packFields op a b) = op := by
  apply BitVec.eq_of_getLsbD_eq
  intro i h
  simp only [opField, packFields, BitVec.getLsbD_extractLsb', BitVec.getLsbD_append, h, decide_true, Bool.true_and]
  rw [if_neg (by omega), if_neg (by omega)]
  congr 1
  omega

theorem aField_packFields (op : BitVec 8) (a b : Word) : aField (packFields op a b) = a := by
  apply BitVec.eq_of_getLsbD_eq
  intro i h
  simp only [aField, packFields, BitVec.getLsbD_extractLsb', BitVec.getLsbD_append, h, decide_true, Bool.true_and]
  rw [if_neg (by omega), if_pos (by omega)]
  congr 1
  omega

theorem bField_packFields (op : BitVec 8) (a b : Word) : bField (packFields op a b) = b := by
  apply BitVec.eq_of_getLsbD_eq
  intro i h
  simp only [bField, packFields, BitVec.getLsbD_extractLsb', BitVec.getLsbD_append, h, decide_true, Bool.true_and]
  rw [if_pos (by omega)]
  congr 1
  omega

/-- A command word is its three fields (30_encoding.md R64). -/
theorem packFields_fields (w : CmdWord) : packFields (opField w) (aField w) (bField w) = w := by
  apply BitVec.eq_of_getLsbD_eq
  intro i h
  simp only [opField, aField, bField, packFields, BitVec.getLsbD_extractLsb', BitVec.getLsbD_append]
  split_ifs with h1 h2
  · simp [h1]
  · simp only [show i - 32 < 32 by omega, decide_true, Bool.true_and]; congr 1; omega
  · simp only [show i - 32 - 32 < 8 by omega, decide_true, Bool.true_and]; congr 1; omega

section ByOpcode
variable {w : CmdWord}

theorem decode_cfgsync (h : opField w = 0x01#8) :
    decode w = .command (.cfgsync (aField w) (bField w).toNat) := by unfold decode; rw [h]; rfl
theorem decode_dropsync (h : opField w = 0x02#8) : decode w = .command .dropsync := by
  unfold decode; rw [h]; rfl
theorem decode_ingest (h : opField w = 0x03#8) : decode w = .command (.ingest ((bField w).getLsbD 0)) := by
  unfold decode; rw [h]; rfl
theorem decode_avail (h : opField w = 0x04#8) : decode w = .command .avail := by unfold decode; rw [h]; rfl
theorem decode_consume (h : opField w = 0x05#8) : decode w = .command (.consume ((bField w).getLsbD 0)) := by
  unfold decode; rw [h]; rfl
theorem decode_randmax (h : opField w = 0x10#8) : decode w = .command (.randmax (s32 (bField w))) := by
  unfold decode; rw [h]; rfl
theorem decode_randrange (h : opField w = 0x11#8) :
    decode w = .command (.randrange (s32 (aField w)) (s32 (bField w))) := by unfold decode; rw [h]; rfl
theorem decode_randbyte (h : opField w = 0x12#8) : decode w = .command .randbyte := by
  unfold decode; rw [h]; rfl

/-- The opcodes of R68, in the order of the table. -/
def opcodes : List (BitVec 8) :=
  [0x01#8, 0x02#8, 0x03#8, 0x04#8, 0x05#8, 0x10#8, 0x11#8, 0x12#8]

/-- Any opcode outside the map is reserved (R72). -/
theorem decode_reserved (h : opField w ∉ opcodes) : decode w = .reserved (opField w) := by
  simp only [opcodes, List.mem_cons, List.not_mem_nil, or_false, not_or, ← BitVec.toNat_inj] at h
  unfold decode
  split <;> first | rfl | (exfalso; simp_all)

/-- What a word decodes to, said once: the opcode and the operands of the command, or a reserved opcode. -/
theorem decode_cases (w : CmdWord) :
    (∃ i, decode w = .command i ∧ opField w = i.opcode) ∨
      (decode w = .reserved (opField w) ∧ opField w ∉ opcodes) := by
  by_cases h : opField w ∈ opcodes
  · refine Or.inl ?_
    simp only [opcodes, List.mem_cons, List.not_mem_nil, or_false] at h
    rcases h with h | h | h | h | h | h | h | h
    · exact ⟨_, decode_cfgsync h, h⟩
    · exact ⟨_, decode_dropsync h, h⟩
    · exact ⟨_, decode_ingest h, h⟩
    · exact ⟨_, decode_avail h, h⟩
    · exact ⟨_, decode_consume h, h⟩
    · exact ⟨_, decode_randmax h, h⟩
    · exact ⟨_, decode_randrange h, h⟩
    · exact ⟨_, decode_randbyte h, h⟩
  · exact Or.inr ⟨decode_reserved h, h⟩

end ByOpcode

/-- Bit `k` of the bits of `v`, most significant first (R77). -/
theorem bitsMsbFirst_length (v : Word) (n : Nat) : (bitsMsbFirst v n).length = n := by
  induction n with
  | zero => rfl
  | succ n ih => simp [bitsMsbFirst, ih]

theorem bitsMsbFirst_getElem (v : Word) (n k : Nat) (h : k < (bitsMsbFirst v n).length) :
    (bitsMsbFirst v n)[k] = v.getLsbD (n - 1 - k) := by
  induction n generalizing k with
  | zero => simp [bitsMsbFirst] at h
  | succ n ih =>
    cases k with
    | zero => simp [bitsMsbFirst]
    | succ k =>
      simp only [bitsMsbFirst, List.getElem_cons_succ]
      rw [ih]
      congr 1
      omega

end Sys2Proof
end

