-- ==== Sys2Proof/Laws/Ops.lean ====
section
/-! SUPPORT. One lemma per shared operation, saying everything it can do. -/

namespace Sys2Proof.Machine

section Store
variable (cfg : Config) (b : Block) (i : Nat) (v : Byte)

theorem memRead_of_lt (h : i < cfg.capacity) : b.memRead cfg i = b.storage.read i := if_pos h

/-- A write changes the store at most, and only an index that exists (20_memory.md R46). -/
theorem memWrite_eq : b.memWrite cfg i v =
    { b with storage := if i < cfg.capacity then b.storage.write i v else b.storage } := by
  unfold Block.memWrite; split <;> rfl

theorem memWrite_wf (h : b.storage.wf = true) : (b.memWrite cfg i v).storage.wf = true := by
  rw [memWrite_eq]; dsimp only; split
  · exact Memory.write_wf _ _ _ h
  · exact h

theorem memWrite_within (h : b.storage.within cfg.capacity = true) :
    (b.memWrite cfg i v).storage.within cfg.capacity = true := by
  rw [memWrite_eq]; dsimp only; split
  · exact Memory.write_within _ _ _ _ ‹_› h
  · exact h

theorem memWrite_read (h : b.storage.wf = true) (k : Nat) : (b.memWrite cfg i v).storage.read k =
    if k = i ∧ i < cfg.capacity then v else b.storage.read k := by
  rw [memWrite_eq]; dsimp only
  by_cases hi : i < cfg.capacity
  · rw [if_pos hi, Memory.read_write _ _ _ _ h]; simp only [hi, and_true]
  · rw [if_neg hi, if_neg (fun e => hi e.2)]

end Store

/-- CFGSYNC's flag (40_sync_control.md R81, R83). -/
theorem acquiredAfterConfigure_zero (b : Block) : b.acquiredAfterConfigure 0 = true := rfl
theorem acquiredAfterConfigure_pos (b : Block) (l : Nat) (h : l ≠ 0) :
    b.acquiredAfterConfigure l = b.acquired := if_neg h

/-- Everything Seek can do (41_bit_ingest.md R88, R89). -/
theorem seek_cases (b : Block) (bit : Bool) :
    (shiftIn b.shiftRegister bit &&& b.syncMask = b.syncWord ∧
      b.seek bit = { b with
        shiftRegister := shiftIn b.shiftRegister bit
        acquired := true
        writeCursor := 0
        readCursor := 0
        bitCursor := 0 }) ∨
    (shiftIn b.shiftRegister bit &&& b.syncMask ≠ b.syncWord ∧
      b.seek bit = { b with shiftRegister := shiftIn b.shiftRegister bit }) := by
  by_cases h : shiftIn b.shiftRegister bit &&& b.syncMask = b.syncWord
  · refine Or.inl ⟨h, ?_⟩
    simp [Block.seek, Block.syncMatches, h, Block.acquire]
  · refine Or.inr ⟨h, ?_⟩
    simp [Block.seek, Block.syncMatches, h]

/-- Everything makeRoom can do (41_bit_ingest.md R93, R94). -/
theorem makeRoom_cases (cfg : Config) (b : Block) :
    (b.writeCursor ≠ cfg.capacity ∧ b.makeRoom cfg = some b) ∨
    (b.writeCursor = cfg.capacity ∧ b.readCursor = b.writeCursor ∧ b.makeRoom cfg = some b.rewind) ∨
    (b.writeCursor = cfg.capacity ∧ b.readCursor ≠ b.writeCursor ∧ b.makeRoom cfg = none) := by
  unfold Block.makeRoom
  by_cases h : b.writeCursor = cfg.capacity
  · by_cases h' : b.readCursor = b.writeCursor
    · exact Or.inr (Or.inl ⟨h, h', by rw [if_pos h, if_pos h']⟩)
    · exact Or.inr (Or.inr ⟨h, h', by rw [if_pos h, if_neg h']⟩)
  · exact Or.inl ⟨h, if_neg h⟩

/-- There is room for a bit where `makeRoom` made some: the only write of the store is in range (20_memory.md R48). -/
theorem makeRoom_lt (cfg : Config) (b c : Block) (h : b.makeRoom cfg = some c) (hcap : 1 ≤ cfg.capacity)
    (hle : b.writeCursor ≤ cfg.capacity) : c.writeCursor < cfg.capacity := by
  rcases makeRoom_cases cfg b with ⟨h1, h2⟩ | ⟨-, -, h2⟩ | ⟨-, -, h2⟩ <;> rw [h2] at h <;> cases h
  · omega
  · exact hcap

/-- The byte at `writeCursor` after Pack (41_bit_ingest.md R90, R92). -/
def packedByte (cfg : Config) (b : Block) (bit : Bool) : Byte :=
  let v := putBit (b.storage.read b.writeCursor) b.bitCursor bit
  if b.bitCursor = 7 then xformByte cfg.xform v else v

/-- Everything Pack does (41_bit_ingest.md R90 to R92). -/
structure PackResult (cfg : Config) (b : Block) (bit : Bool) (b' : Block) : Prop where
  syncWord : b'.syncWord = b.syncWord
  syncMask : b'.syncMask = b.syncMask
  syncLength : b'.syncLength = b.syncLength
  shiftRegister : b'.shiftRegister = b.shiftRegister
  acquired : b'.acquired = b.acquired
  readCursor : b'.readCursor = b.readCursor
  bitCursor : b'.bitCursor = if b.bitCursor = 7 then 0 else b.bitCursor + 1
  writeCursor : b'.writeCursor = if b.bitCursor = 7 then b.writeCursor + 1 else b.writeCursor
  canonical : b.storage.wf = true → b'.storage.wf = true
  within : b.storage.within cfg.capacity = true → b'.storage.within cfg.capacity = true
  reads : b.storage.wf = true → ∀ k, b'.storage.read k =
    if k = b.writeCursor ∧ b.writeCursor < cfg.capacity then packedByte cfg b bit else b.storage.read k

/-- The byte at the write cursor. -/
theorem PackResult.read_at {cfg : Config} {b b' : Block} {bit : Bool} (h : PackResult cfg b bit b')
    (hwf : b.storage.wf = true) (hlt : b.writeCursor < cfg.capacity) :
    b'.storage.read b.writeCursor = packedByte cfg b bit := by rw [h.reads hwf, if_pos ⟨rfl, hlt⟩]

/-- Every other byte. -/
theorem PackResult.read_other {cfg : Config} {b b' : Block} {bit : Bool} (h : PackResult cfg b bit b')
    (hwf : b.storage.wf = true) (k : Nat) (hk : k ≠ b.writeCursor) :
    b'.storage.read k = b.storage.read k := by rw [h.reads hwf, if_neg (fun e => hk e.1)]

/-- Pack, in every state. -/
theorem pack_result (cfg : Config) (b : Block) (bit : Bool) : PackResult cfg b bit (b.pack cfg bit) := by
  unfold Block.pack
  by_cases h7 : b.bitCursor = 7
  · simp only [if_pos h7, Block.commit]
    refine ⟨?_, ?_, ?_, ?_, ?_, ?_, ?_, ?_, fun hw => ?_, fun hw => ?_, fun hw k => ?_⟩
    · simp only [memWrite_eq]
    · simp only [memWrite_eq]
    · simp only [memWrite_eq]
    · simp only [memWrite_eq]
    · simp only [memWrite_eq]
    · simp only [memWrite_eq]
    · rw [if_pos h7]
    · rw [if_pos h7]; simp only [memWrite_eq]
    · exact memWrite_wf _ _ _ _ (memWrite_wf _ _ _ _ hw)
    · exact memWrite_within _ _ _ _ (memWrite_within _ _ _ _ hw)
    · have hc : ∀ v, (b.memWrite cfg b.writeCursor v).writeCursor = b.writeCursor := fun v => by rw [memWrite_eq]
      simp only [hc]
      rw [memWrite_read _ _ _ _ (memWrite_wf _ _ _ _ hw), memWrite_read _ _ _ _ hw]
      by_cases hk : k = b.writeCursor ∧ b.writeCursor < cfg.capacity
      · rw [if_pos hk, if_pos hk, memRead_of_lt _ _ _ hk.2, memRead_of_lt _ _ _ hk.2,
          memWrite_read _ _ _ _ hw, if_pos ⟨rfl, hk.2⟩, packedByte, if_pos h7]
      · rw [if_neg hk, if_neg hk, if_neg hk]
  · simp only [if_neg h7]
    refine ⟨?_, ?_, ?_, ?_, ?_, ?_, ?_, ?_, fun hw => memWrite_wf _ _ _ _ hw,
      fun hw => memWrite_within _ _ _ _ hw, fun hw k => ?_⟩
    · simp only [memWrite_eq]
    · simp only [memWrite_eq]
    · simp only [memWrite_eq]
    · simp only [memWrite_eq]
    · simp only [memWrite_eq]
    · simp only [memWrite_eq]
    · rw [if_neg h7]
    · rw [if_neg h7]; simp only [memWrite_eq]
    · rw [memWrite_read _ _ _ _ hw]
      by_cases hk : k = b.writeCursor ∧ b.writeCursor < cfg.capacity
      · rw [if_pos hk, if_pos hk, memRead_of_lt _ _ _ hk.2, packedByte, if_neg h7]
      · rw [if_neg hk, if_neg hk]

/-- Pack neither reads nor writes the sync word (10_state.md R40). -/
theorem pack_syncWord (cfg : Config) (b : Block) (bit : Bool) (w : Word) :
    Block.pack cfg { b with syncWord := w } bit = { b.pack cfg bit with syncWord := w } := by
  simp only [Block.pack, Block.commit, Block.memRead, memWrite_eq]
  split <;> rfl

section Entropy
variable (cfg : Config) (src : Source)

/-- A draw takes one byte, whatever answers it (43_rng.md R109). -/
theorem draw_drawn : (src.draw cfg).2.drawn = src.drawn + 1 := by
  unfold Source.draw
  cases cfg.entropyMode with
  | stubZero => rfl
  | external => cases src.pending <;> rfl

/-- The stub answers 0x00 (00_scope.md R10, R18). -/
theorem draw_stub (h : cfg.entropyMode = .stubZero) :
    src.draw cfg = (0x00#8, { src with drawn := src.drawn + 1 }) := by
  unfold Source.draw; rw [h]

/-- An external source answers the byte the outside supplies next (00_scope.md R18). -/
theorem draw_external (h : cfg.entropyMode = .external) (e : Byte) (rest : List Byte) (n : Nat) :
    Source.draw cfg { pending := e :: rest, drawn := n } = (e, { pending := rest, drawn := n + 1 }) := by
  unfold Source.draw; rw [h]

theorem drawWord_drawn : (src.drawWord cfg).2.drawn = src.drawn + 4 := by
  simp only [Source.drawWord, draw_drawn]

theorem drawWord_stub (h : cfg.entropyMode = .stubZero) :
    src.drawWord cfg = (0x00000000#32, { src with drawn := src.drawn + 4 }) := by
  simp only [Source.drawWord, draw_stub cfg _ h]
  rfl

theorem drawWord_external (h : cfg.entropyMode = .external) (e0 e1 e2 e3 : Byte) (rest : List Byte) (n : Nat) :
    Source.drawWord cfg { pending := e0 :: e1 :: e2 :: e3 :: rest, drawn := n } =
      (bigEndian e0 e1 e2 e3, { pending := rest, drawn := n + 4 }) := by
  simp only [Source.drawWord, draw_external cfg h]

theorem randMax_zero : src.randMax cfg 0 = (0, src) := rfl

theorem randMax_of_ne (max : Int) (h : max ≠ 0) :
    src.randMax cfg max = (truncRem (guardedAbs (s32 (src.drawWord cfg).1)) max, (src.drawWord cfg).2) :=
  if_neg h

/-- The range of RandMax, whatever the entropy (43_rng.md R105). -/
theorem randMax_range (max : Int) (h : max ≠ 0) :
    0 ≤ (src.randMax cfg max).1 ∧ (src.randMax cfg max).1 < (max.natAbs : Int) ∧
      (src.randMax cfg max).1 ≤ 2147483647 := by
  rw [randMax_of_ne cfg src max h]
  have hg := guardedAbs_range _ (inS32_s32 (src.drawWord cfg).1)
  have ht := truncRem_range _ max hg.1 h
  exact ⟨ht.1, ht.2.1, le_trans ht.2.2 hg.2⟩

end Entropy

/-- The number of draws RandMax makes (43_rng.md R109). -/
theorem randMax_drawn (cfg : Config) (src : Source) (max : Int) :
    (src.randMax cfg max).2.drawn = if max = 0 then src.drawn else src.drawn + 4 := by
  by_cases h : max = 0
  · subst h; rfl
  · rw [randMax_of_ne cfg src max h, if_neg h]; exact drawWord_drawn cfg src

end Sys2Proof.Machine
end

