-- ==== Sys2Proof/Laws/Exec.lean ====
section
/-! SUPPORT. Everything a command and a step can do, said once. -/

namespace Sys2Proof.Machine

/-- Everything INGEST can do (41_bit_ingest.md R87). -/
theorem execIngest_cases (bit : Bool) (s : State) :
    (s.block.acquired = false ∧ execIngest bit s = .next (s.succeed (s.block.seek bit) 0x00000000#32)) ∨
    (s.block.acquired = true ∧ s.block.writeCursor = s.cfg.capacity ∧
      s.block.readCursor ≠ s.block.writeCursor ∧ execIngest bit s = .next (s.fail .overflow)) ∨
    (s.block.acquired = true ∧ ∃ b, s.block.makeRoom s.cfg = some b ∧
      execIngest bit s = .next (s.succeed (b.pack s.cfg bit) 0x00000000#32)) := by
  unfold execIngest
  cases ha : s.block.acquired with
  | false => exact Or.inl ⟨rfl, rfl⟩
  | true =>
    rcases makeRoom_cases s.cfg s.block with ⟨h1, h2⟩ | ⟨h1, h2, h3⟩ | ⟨h1, h2, h3⟩
    · exact Or.inr (Or.inr ⟨rfl, _, h2, by rw [h2]; rfl⟩)
    · exact Or.inr (Or.inr ⟨rfl, _, h3, by rw [h3]; rfl⟩)
    · exact Or.inr (Or.inl ⟨rfl, h1, h2, by rw [h3]; rfl⟩)

/-- Everything INGEST can have done. -/
theorem execIngest_next {bit : Bool} {s t : State} (h : execIngest bit s = .next t) :
    (s.block.acquired = false ∧ t = s.succeed (s.block.seek bit) 0x00000000#32) ∨
    (s.block.acquired = true ∧ s.block.writeCursor = s.cfg.capacity ∧
      s.block.readCursor ≠ s.block.writeCursor ∧ t = s.fail .overflow) ∨
    (s.block.acquired = true ∧ ∃ b, s.block.makeRoom s.cfg = some b ∧
      t = s.succeed (b.pack s.cfg bit) 0x00000000#32) := by
  rcases execIngest_cases bit s with ⟨h1, h2⟩ | ⟨h1, h2, h3, h4⟩ | ⟨h1, b, h2, h3⟩
  · rw [h2] at h; cases h; exact Or.inl ⟨h1, rfl⟩
  · rw [h4] at h; cases h; exact Or.inr (Or.inl ⟨h1, h2, h3, rfl⟩)
  · rw [h3] at h; cases h; exact Or.inr (Or.inr ⟨h1, b, h2, rfl⟩)

/-- Everything CONSUME can have done (42_consumer.md R99 to R101). -/
theorem execConsume_next {drop : Bool} {s t : State} (h : execConsume drop s = .next t) :
    (s.block.readCursor = s.block.writeCursor ∧ t = s.fail .bufferEmpty) ∨
    (s.block.readCursor ≠ s.block.writeCursor ∧
      t = s.succeed
        (if drop then Block.dropSync { s.block with readCursor := s.block.readCursor + 1 }
          else { s.block with readCursor := s.block.readCursor + 1 })
        ((s.block.memRead s.cfg s.block.readCursor).setWidth 32)) := by
  unfold execConsume at h
  split at h
  · cases h; exact Or.inl ⟨‹_›, rfl⟩
  · cases h; exact Or.inr ⟨‹_›, rfl⟩

/-- CONSUME with a byte to read, in every state. -/
theorem execConsume_of_ne (drop : Bool) (s : State) (h : s.block.readCursor ≠ s.block.writeCursor) :
    execConsume drop s = .next (s.succeed
      (if drop then Block.dropSync { s.block with readCursor := s.block.readCursor + 1 }
        else { s.block with readCursor := s.block.readCursor + 1 })
      ((s.block.memRead s.cfg s.block.readCursor).setWidth 32)) := if_neg h

/-- CONSUME with a byte to read at an index that exists, as every state of the cursor invariant has it. -/
theorem execConsume_of_lt (drop : Bool) (s : State) (h : s.block.readCursor ≠ s.block.writeCursor)
    (hlt : s.block.readCursor < s.cfg.capacity) :
    execConsume drop s = .next (s.succeed
      (if drop then Block.dropSync { s.block with readCursor := s.block.readCursor + 1 }
        else { s.block with readCursor := s.block.readCursor + 1 })
      ((s.block.storage.read s.block.readCursor).setWidth 32)) := by
  rw [execConsume_of_ne drop s h, memRead_of_lt _ _ _ hlt]

/-! ## The RNG commands, by `HAS_RNG` (30_encoding.md R73; 43_rng.md R103, R106, R108) -/

section Rng

variable (s : State)

theorem execRandmax_of_rng (max : Int) (h : s.cfg.hasRng = true) : execRandmax max s =
    .next (s.succeedDrawn (u32 (s.source.randMax s.cfg max).1) (s.source.randMax s.cfg max).2) := if_pos h

theorem execRandmax_of_noRng (max : Int) (h : s.cfg.hasRng = false) :
    execRandmax max s = .next (s.fail .unsupported) := if_neg (by rw [h]; exact Bool.false_ne_true)

theorem execRandrange_of_le (min max : Int) (h : s.cfg.hasRng = true) (hle : max ≤ min) :
    execRandrange min max s = .next (s.succeedDrawn (u32 min) s.source) := (if_pos h).trans (if_pos hle)

theorem execRandrange_of_lt (min max : Int) (h : s.cfg.hasRng = true) (hlt : min < max) :
    execRandrange min max s = .next (s.succeedDrawn
      (u32 (wrap32 (min + (s.source.randMax s.cfg (wrap32 (max - min))).1)))
      (s.source.randMax s.cfg (wrap32 (max - min))).2) := (if_pos h).trans (if_neg (by omega))

theorem execRandrange_of_noRng (min max : Int) (h : s.cfg.hasRng = false) :
    execRandrange min max s = .next (s.fail .unsupported) := if_neg (by rw [h]; exact Bool.false_ne_true)

theorem execRandbyte_of_rng (h : s.cfg.hasRng = true) : execRandbyte s =
    .next (s.succeedDrawn ((s.source.draw s.cfg).1.setWidth 32) (s.source.draw s.cfg).2) := if_pos h

theorem execRandbyte_of_noRng (h : s.cfg.hasRng = false) :
    execRandbyte s = .next (s.fail .unsupported) := if_neg (by rw [h]; exact Bool.false_ne_true)

end Rng

section Step
variable (s : State)

theorem step_nil (h : s.inputs = []) : step s = .next s := by unfold step; rw [h]

theorem step_reset (rest : List Event) (h : s.inputs = .reset :: rest) :
    step s = .next (s.performReset rest) := by unfold step; rw [h]

theorem step_command (a : Agent) (w : CmdWord) (rest : List Event) (i : Instr)
    (h : s.inputs = .command a w :: rest) (hd : decode w = .command i) :
    step s = exec i (s.accept a rest) := by unfold step; rw [h]; simp only [hd]

theorem step_reserved (a : Agent) (w : CmdWord) (rest : List Event) (op : BitVec 8)
    (h : s.inputs = .command a w :: rest) (hd : decode w = .reserved op) :
    step s = .next (s.accept a rest).performReserved := by unfold step; rw [h]; simp only [hd]

end Step

/-- Everything a step can do: nothing, a RESET, a reserved word, or a command. -/
theorem step_cases (s : State) :
    (s.inputs = [] ∧ step s = .next s) ∨
    (∃ rest, s.inputs = .reset :: rest ∧ step s = .next (s.performReset rest)) ∨
    (∃ a w rest op, s.inputs = .command a w :: rest ∧ decode w = .reserved op ∧
      step s = .next (s.accept a rest).performReserved) ∨
    (∃ a w rest i, s.inputs = .command a w :: rest ∧ decode w = .command i ∧
      step s = exec i (s.accept a rest)) := by
  cases h : s.inputs with
  | nil => exact Or.inl ⟨rfl, step_nil s h⟩
  | cons e rest =>
    cases e with
    | reset => exact Or.inr (Or.inl ⟨rest, rfl, step_reset s rest h⟩)
    | command a w =>
      cases hd : decode w with
      | reserved op => exact Or.inr (Or.inr (Or.inl ⟨a, w, rest, op, rfl, hd, step_reserved s a w rest op h hd⟩))
      | command i => exact Or.inr (Or.inr (Or.inr ⟨a, w, rest, i, rfl, hd, step_command s a w rest i h hd⟩))

/-- What every command leaves alone: the configuration, the commands still to come and the sender. -/
theorem exec_surroundings (i : Instr) (s t : State) (h : exec i s = .next t) :
    t.cfg = s.cfg ∧ t.inputs = s.inputs ∧ t.sender = s.sender := by
  cases i with
  | cfgsync v l =>
    simp only [exec, execCfgsync] at h
    split at h <;> cases h <;> exact ⟨rfl, rfl, rfl⟩
  | dropsync => cases h; exact ⟨rfl, rfl, rfl⟩
  | ingest bit =>
    rcases execIngest_next h with ⟨-, rfl⟩ | ⟨-, -, -, rfl⟩ | ⟨-, b, -, rfl⟩ <;> exact ⟨rfl, rfl, rfl⟩
  | avail => cases h; exact ⟨rfl, rfl, rfl⟩
  | consume d => rcases execConsume_next h with ⟨-, rfl⟩ | ⟨-, rfl⟩ <;> exact ⟨rfl, rfl, rfl⟩
  | randmax m =>
    simp only [exec, execRandmax] at h
    split at h <;> cases h <;> exact ⟨rfl, rfl, rfl⟩
  | randrange m n =>
    simp only [exec, execRandrange] at h
    split at h
    · split at h <;> cases h <;> exact ⟨rfl, rfl, rfl⟩
    · cases h; exact ⟨rfl, rfl, rfl⟩
  | randbyte =>
    simp only [exec, execRandbyte] at h
    split at h <;> cases h <;> exact ⟨rfl, rfl, rfl⟩

/-- One more step of a run. -/
theorem run_succ (k : Nat) (s t : State) (h : step s = .next t) :
    Sys2Proof.core.run (k + 1) s = Sys2Proof.core.run k t := by
  have h' : Sys2Proof.core.step s = .next t := h
  simp only [Host.Core.run, h']

/-- A run that goes on has taken its first step. -/
theorem run_succ_next (k : Nat) (s t : State) (h : Sys2Proof.core.run (k + 1) s = .next t) :
    ∃ u, step s = .next u ∧ Sys2Proof.core.run k u = .next t := by
  cases hs : step s with
  | next u => exact ⟨u, rfl, by rw [← run_succ k s u hs]; exact h⟩
  | fault r =>
    have h' : Sys2Proof.core.step s = .fault r := hs
    simp only [Host.Core.run, h'] at h
    cases h
  | refused r =>
    have h' : Sys2Proof.core.step s = .refused r := hs
    simp only [Host.Core.run, h'] at h
    cases h

/-- Runs compose. -/
theorem run_add (k n : Nat) (s t : State) (h : Sys2Proof.core.run k s = .next t) :
    Sys2Proof.core.run (k + n) s = Sys2Proof.core.run n t := by
  induction k generalizing s with
  | zero => cases h; rw [Nat.zero_add]
  | succ k ih =>
    obtain ⟨u, hu, hr⟩ := run_succ_next k s t h
    rw [Nat.succ_add, run_succ _ _ _ hu]
    exact ih u hr

end Sys2Proof.Machine
end

