-- ==== Sys2Proof/Laws/PerInstr.lean ====
section
/-! SUPPORT. Per command: the three fields of its encoding are the opcode and operands the spec gives it. -/

namespace Sys2Proof.Laws.EncodeFields

/-- The encoding of a command has its opcode in `op`, its operands in `a` and `b`, and nothing else
(30_encoding.md R64, R68). -/
def Statement (i : Instr) : Prop :=
  opField (encode i) = i.opcode ∧ aField (encode i) = i.operandA ∧ bField (encode i) = i.operandB ∧
    i.opcode ∈ opcodes

theorem cfgsync (value : Word) (length : Nat) : Statement (.cfgsync value length) :=
  ⟨opField_packFields .., aField_packFields .., bField_packFields .., by simp [Instr.opcode, opcodes]⟩

theorem dropsync : Statement .dropsync :=
  ⟨opField_packFields .., aField_packFields .., bField_packFields .., by simp [Instr.opcode, opcodes]⟩

theorem ingest (bit : Bool) : Statement (.ingest bit) :=
  ⟨opField_packFields .., aField_packFields .., bField_packFields .., by simp [Instr.opcode, opcodes]⟩

theorem avail : Statement .avail :=
  ⟨opField_packFields .., aField_packFields .., bField_packFields .., by simp [Instr.opcode, opcodes]⟩

theorem consume (dropSyncAfter : Bool) : Statement (.consume dropSyncAfter) :=
  ⟨opField_packFields .., aField_packFields .., bField_packFields .., by simp [Instr.opcode, opcodes]⟩

theorem randmax (max : Int) : Statement (.randmax max) :=
  ⟨opField_packFields .., aField_packFields .., bField_packFields .., by simp [Instr.opcode, opcodes]⟩

theorem randrange (min max : Int) : Statement (.randrange min max) :=
  ⟨opField_packFields .., aField_packFields .., bField_packFields .., by simp [Instr.opcode, opcodes]⟩

theorem randbyte : Statement .randbyte :=
  ⟨opField_packFields .., aField_packFields .., bField_packFields .., by simp [Instr.opcode, opcodes]⟩

end Sys2Proof.Laws.EncodeFields
end

