-- ==== Sys2Proof/Laws/Step.lean ====
section
/-! SUPPORT. What a step can do to the block and to the response port, said once for every invariant. -/

namespace Sys2Proof.Machine

/-- Pass-through mode, as a number and as bits. -/
theorem syncLength_zero (b : Block) : b.syncLength = 0#6 ↔ b.syncLength.toNat = 0 := by
  rw [← BitVec.toNat_inj]; rfl

/-- Every command gives a response; one that does not end `OK` changed nothing else, and had its one cause
(60_exceptions.md R113 to R118). -/
theorem exec_status (i : Instr) (s t : State) (h : exec i s = .next t) :
   ∃ r, t.rsp = some r ∧ ((r.st = .ok) ∨ (t = { s with rsp := some ⟨r.st, 0#32⟩ } ∧
     ((r.st = .invalidSyncWord ∧ ∃ v l, i = .cfgsync v l ∧ 32 < l) ∨
      (r.st = .bufferEmpty ∧ (∃ d, i = .consume d) ∧ s.block.readCursor = s.block.writeCursor) ∨
      (r.st = .overflow ∧ (∃ b, i = .ingest b) ∧ s.block.acquired = true ∧
        s.block.writeCursor = s.cfg.capacity ∧ s.block.readCursor ≠ s.block.writeCursor) ∨
      (r.st = .unsupported ∧ s.cfg.hasRng = false ∧
        ((∃ m, i = .randmax m) ∨ (∃ m n, i = .randrange m n) ∨ i = .randbyte))))) := by
  cases i with
  | cfgsync v l =>
    simp only [exec, execCfgsync] at h
    split at h <;> cases h
    · exact ⟨_, rfl, Or.inr ⟨rfl, Or.inl ⟨rfl, v, l, rfl, ‹_›⟩⟩⟩
    · exact ⟨_, rfl, Or.inl rfl⟩
  | dropsync => cases h; exact ⟨_, rfl, Or.inl rfl⟩
  | ingest bit =>
    rcases execIngest_next h with ⟨-, rfl⟩ | ⟨h1, h2, h3, rfl⟩ | ⟨-, b, -, rfl⟩
    · exact ⟨_, rfl, Or.inl rfl⟩
    · exact ⟨_, rfl, Or.inr ⟨rfl, Or.inr (Or.inr (Or.inl ⟨rfl, ⟨_, rfl⟩, h1, h2, h3⟩))⟩⟩
    · exact ⟨_, rfl, Or.inl rfl⟩
  | avail => cases h; exact ⟨_, rfl, Or.inl rfl⟩
  | consume d =>
    rcases execConsume_next h with ⟨h1, rfl⟩ | ⟨-, rfl⟩
    · exact ⟨_, rfl, Or.inr ⟨rfl, Or.inr (Or.inl ⟨rfl, ⟨_, rfl⟩, h1⟩)⟩⟩
    · exact ⟨_, rfl, Or.inl rfl⟩
  | randmax m =>
    simp only [exec, execRandmax] at h
    split at h <;> rename_i hr <;> cases h
    · exact ⟨_, rfl, Or.inl rfl⟩
    · exact ⟨_, rfl, Or.inr ⟨rfl, Or.inr (Or.inr (Or.inr ⟨rfl, by simpa using hr,
        Or.inl ⟨_, rfl⟩⟩))⟩⟩
  | randrange m n =>
    simp only [exec, execRandrange] at h
    split at h <;> rename_i hr
    · split at h <;> cases h <;> exact ⟨_, rfl, Or.inl rfl⟩
    · cases h; exact ⟨_, rfl, Or.inr ⟨rfl, Or.inr (Or.inr (Or.inr ⟨rfl, by simpa using hr,
        Or.inr (Or.inl ⟨_, _, rfl⟩)⟩))⟩⟩
  | randbyte =>
    simp only [exec, execRandbyte] at h
    split at h <;> rename_i hr <;> cases h
    · exact ⟨_, rfl, Or.inl rfl⟩
    · exact ⟨_, rfl, Or.inr ⟨rfl, Or.inr (Or.inr (Or.inr ⟨rfl, by simpa using hr,
        Or.inr (Or.inr rfl)⟩))⟩⟩

/-- A step whose next event is a command word: a reserved word, or the command it decodes to. -/
theorem step_command_cases (s t : State) (a : Agent) (w : CmdWord) (rest : List Event)
    (hin : s.inputs = .command a w :: rest) (h : step s = .next t) :
    (∃ op, decode w = .reserved op ∧ t = (s.accept a rest).performReserved) ∨
    (∃ i, decode w = .command i ∧ exec i (s.accept a rest) = .next t) := by
  cases hd : decode w with
  | reserved op => rw [step_reserved s a w rest op hin hd] at h; cases h; exact Or.inl ⟨op, rfl, rfl⟩
  | command i => rw [step_command s a w rest i hin hd] at h; exact Or.inr ⟨i, rfl, h⟩

/-- Everything a step can do to the block, and that it never touches the configuration (10_state.md R40, R43). -/
theorem step_block_cases (s t : State) (h : step s = .next t) :
    t.cfg = s.cfg ∧ (t.block = s.block ∨ t.block = Block.afterReset s.block.storage ∨
    (∃ v l, l ≤ 32 ∧ t.block = s.block.configure v l) ∨ t.block = s.block.dropSync ∨
    (∃ bit, s.block.acquired = false ∧ t.block = s.block.seek bit) ∨
    (∃ bit b, (∃ a w rest, s.inputs = .command a w :: rest ∧ decode w = .command (.ingest bit)) ∧
      s.block.acquired = true ∧ s.block.makeRoom s.cfg = some b ∧ PackResult s.cfg b bit t.block) ∨
    (s.block.readCursor ≠ s.block.writeCursor ∧
      (t.block = { s.block with readCursor := s.block.readCursor + 1 } ∨
     t.block = Block.dropSync { s.block with readCursor := s.block.readCursor + 1 }))) := by
  rcases step_cases s with ⟨-, hs⟩ | ⟨rest, -, hs⟩ | ⟨a, w, rest, op, -, -, hs⟩ | ⟨a, w, rest, i, hin, hd, hs⟩
  · rw [hs] at h; cases h; exact ⟨rfl, Or.inl rfl⟩
  · rw [hs] at h; cases h; exact ⟨rfl, Or.inr (Or.inl rfl)⟩
  · rw [hs] at h; cases h; exact ⟨rfl, Or.inl rfl⟩
  · rw [hs] at h
    refine ⟨(exec_surroundings i _ t h).1, ?_⟩
    cases i with
    | cfgsync v l =>
      simp only [exec, execCfgsync] at h
      split at h <;> cases h
      · exact Or.inl rfl
      · exact Or.inr (Or.inr (Or.inl ⟨v, l, by omega, rfl⟩))
    | dropsync => cases h; exact Or.inr (Or.inr (Or.inr (Or.inl rfl)))
    | ingest bit =>
      rcases execIngest_next h with ⟨h1, rfl⟩ | ⟨-, -, -, rfl⟩ | ⟨h1, b, h2, rfl⟩
      · exact Or.inr (Or.inr (Or.inr (Or.inr (Or.inl ⟨bit, h1, rfl⟩))))
      · exact Or.inl rfl
      · exact Or.inr (Or.inr (Or.inr (Or.inr (Or.inr (Or.inl
          ⟨bit, b, ⟨a, w, rest, hin, hd⟩, h1, h2, pack_result _ _ _⟩)))))
    | avail => cases h; exact Or.inl rfl
    | consume d =>
      rcases execConsume_next h with ⟨-, rfl⟩ | ⟨h1, rfl⟩
      · exact Or.inl rfl
      · refine Or.inr (Or.inr (Or.inr (Or.inr (Or.inr (Or.inr ⟨h1, ?_⟩)))))
        cases d
        · exact Or.inl rfl
        · exact Or.inr rfl
    | randmax m => simp only [exec, execRandmax] at h; split at h <;> cases h <;> exact Or.inl rfl
    | randrange m n =>
      simp only [exec, execRandrange] at h; split at h
      · split at h <;> cases h <;> exact Or.inl rfl
      · cases h; exact Or.inl rfl
    | randbyte => simp only [exec, execRandbyte] at h; split at h <;> cases h <;> exact Or.inl rfl

end Sys2Proof.Machine
end

