-- ==== Sys2Proof/Laws/Streams.lean ====
section
/-! SUPPORT. A bit, a byte and a sync word fed to the block; the queue of unread bytes; blocks that agree. -/

namespace Sys2Proof.Machine

/-! ## One bit -/

theorem decode_ingest_encode (b : Bool) : decode (encode (.ingest b)) = .command (.ingest b) := by
  cases b <;> decide

/-- INGEST, sent by the producer. -/
theorem step_bit (s : State) (b : Bool) (rest : List Event) (hin : s.inputs = Event.bit b :: rest) :
    step s = execIngest b (s.accept .producer rest) :=
  step_command s _ _ rest _ hin (decode_ingest_encode b)

/-- A bit while seeking (41_bit_ingest.md R88). -/
theorem step_bit_seek (s : State) (b : Bool) (rest : List Event) (hin : s.inputs = Event.bit b :: rest)
    (ha : s.block.acquired = false) :
    step s = .next ((s.accept .producer rest).succeed (s.block.seek b) 0#32) := by
  rw [step_bit s b rest hin]
  rcases execIngest_cases b (s.accept .producer rest) with ⟨-, h⟩ | ⟨h, -⟩ | ⟨h, -⟩
  · exact h
  · rw [accept_block, ha] at h; cases h
  · rw [accept_block, ha] at h; cases h

/-- A bit while packing, with room (R90). -/
theorem step_bit_pack (s : State) (b : Bool) (rest : List Event) (hin : s.inputs = Event.bit b :: rest)
    (ha : s.block.acquired = true) (hw : s.block.writeCursor < s.cfg.capacity) :
    ∃ b', PackResult s.cfg s.block b b' ∧
    step s = .next ((s.accept .producer rest).succeed b' 0#32) := by
  rw [step_bit s b rest hin]
  refine ⟨_, pack_result s.cfg s.block b, ?_⟩
  rcases execIngest_cases b (s.accept .producer rest) with ⟨h, -⟩ | ⟨-, h, -⟩ | ⟨-, c, h, h'⟩
  · rw [accept_block, ha] at h; cases h
  · simp at h; omega
  · rw [h']
    rcases makeRoom_cases s.cfg s.block with ⟨-, g⟩ | ⟨g, -⟩ | ⟨g, -⟩
    · simp only [accept_block, accept_cfg] at h ⊢
      rw [g] at h; cases h; rfl
    · omega
    · omega

/-- A bit on a full store that is not drained (R93). -/
theorem step_bit_overflow (s : State) (b : Bool) (rest : List Event) (hin : s.inputs = Event.bit b :: rest)
    (ha : s.block.acquired = true) (hw : s.block.writeCursor = s.cfg.capacity)
    (hr : s.block.readCursor ≠ s.block.writeCursor) :
    step s = .next ((s.accept .producer rest).fail .overflow) := by
  rw [step_bit s b rest hin]
  rcases execIngest_cases b (s.accept .producer rest) with ⟨h, -⟩ | ⟨-, -, -, h⟩ | ⟨-, c, h, h'⟩
  · rw [accept_block, ha] at h; cases h
  · exact h
  · simp only [accept_block, accept_cfg] at h
    rcases makeRoom_cases s.cfg s.block with ⟨g, -⟩ | ⟨-, g, -⟩ | ⟨-, -, g⟩
    · exact absurd hw g
    · exact absurd g hr
    · rw [g] at h; cases h

/-! ## Runs of bits -/

/-- Blocks with the same nine fields are the same. -/
theorem block_ext {b c : Block} (h1 : b.syncWord = c.syncWord) (h2 : b.syncMask = c.syncMask)
    (h3 : b.syncLength = c.syncLength) (h4 : b.shiftRegister = c.shiftRegister)
    (h5 : b.acquired = c.acquired) (h6 : b.storage = c.storage)
    (h7 : b.writeCursor = c.writeCursor) (h8 : b.readCursor = c.readCursor)
    (h9 : b.bitCursor = c.bitCursor) : b = c := by
  cases b; cases c; subst h1; subst h2; subst h3; subst h4; subst h5
  subst h6; subst h7; subst h8; subst h9; rfl

/-- The next bit of a word fed most significant bit first. -/
theorem bitsMsbFirst_drop (v : Word) (n j : Nat) (h : j < n) :
    (bitsMsbFirst v n).drop j = v.getLsbD (n - 1 - j) :: (bitsMsbFirst v n).drop (j + 1) := by
  rw [List.drop_eq_getElem_cons (by rw [bitsMsbFirst_length]; exact h), bitsMsbFirst_getElem]

/-- One more step at the end of a run. -/
theorem run_concat (k : Nat) (s t u : State) (h : Sys2Proof.core.run k s = .next t)
    (h2 : step t = .next u) : Sys2Proof.core.run (k + 1) s = .next u := by
  rw [run_add k 1 s t h, run_succ 0 _ _ h2]; rfl

/-- The first `j` bits of a byte fed most significant bit first (20_memory.md R49). -/
theorem run_byte_prefix (s : State) (v : Byte) (rest : List Event) (ha : s.block.acquired = true)
    (hb : s.block.bitCursor = 0) (hwf : s.block.storage.wf = true) (hw : s.block.writeCursor < s.cfg.capacity)
    (hin : s.inputs = (bitsMsbFirst (v.setWidth 32) 8).map Event.bit ++ rest) (j : Nat) (hj : j ≤ 7) :
    ∃ t : State, Sys2Proof.core.run j s = .next t ∧ t.cfg = s.cfg ∧ t.source = s.source ∧
      t.inputs = ((bitsMsbFirst (v.setWidth 32) 8).drop j).map Event.bit ++ rest ∧
      t.block = { s.block with storage := t.block.storage, bitCursor := ⟨j, by omega⟩ } ∧
      t.block.storage.wf = true ∧
      (∀ i, i ≠ s.block.writeCursor → t.block.storage.read i = s.block.storage.read i) ∧
      (∀ k, k < j → (t.block.storage.read s.block.writeCursor).getLsbD k = v.getLsbD (7 - k)) ∧
      (0 < j → t.rsp = some ⟨.ok, 0#32⟩) := by
  induction j with
  | zero =>
    exact ⟨s, rfl, rfl, rfl, hin, by rw [show (⟨0, by omega⟩ : Fin 8) = s.block.bitCursor from hb.symm],
      hwf, fun _ _ => rfl, fun k hk => by omega, fun h => by omega⟩
  | succ j ih =>
    obtain ⟨t, h1, h2, h2', h3, h4, h5, h6, h7, -⟩ := ih (by omega)
    rw [bitsMsbFirst_drop _ _ _ (by omega), List.map_cons, List.cons_append] at h3
    have hwt : t.block.writeCursor = s.block.writeCursor := by rw [h4]
    have hbt : t.block.bitCursor = ⟨j, by omega⟩ := by rw [h4]
    obtain ⟨b', hp, hs⟩ := step_bit_pack t _ _ h3 (by rw [h4]; exact ha) (by rw [hwt, h2]; exact hw)
    have hne : t.block.bitCursor ≠ 7 := by rw [hbt]; intro h; have := congrArg Fin.val h; simp at this; omega
    refine ⟨_, run_concat j s t _ h1 hs, h2, h2', rfl, ?_, hp.canonical h5,
      fun i hi => ?_, fun k hk => ?_, fun _ => rfl⟩
    · simp only [succeed_block]
      have e1 := hp.syncWord; have e2 := hp.syncMask; have e3 := hp.syncLength; have e4 := hp.shiftRegister
      have e5 := hp.acquired; have e6 := hp.readCursor; have e7 := hp.bitCursor; have e8 := hp.writeCursor
      rw [if_neg hne] at e7 e8
      have hc : t.block.bitCursor + 1 = ⟨j + 1, by omega⟩ := by
        rw [hbt]; apply Fin.ext; rw [Fin.val_add]; simp; omega
      rw [hc] at e7
      rw [h4] at e1 e2 e3 e4 e5 e6 e8
      exact block_ext e1 e2 e3 e4 e5 rfl e8 e6 e7
    · simp only [succeed_block]
      rw [hp.read_other h5 i (by rw [hwt]; exact hi), h6 i hi]
    · simp only [succeed_block]
      rw [← hwt, hp.read_at h5 (by rw [hwt, h2]; exact hw), packedByte, if_neg hne, putBit_getLsbD _ _ _ _ (by omega), hbt, hwt]
      simp only
      split_ifs with hkj
      · subst hkj; simp; omega
      · exact h7 k (by omega)

/-- A whole byte fed most significant bit first (20_memory.md R50; 41_bit_ingest.md R92, R97). -/
theorem run_byte (s : State) (v : Byte) (rest : List Event) (ha : s.block.acquired = true)
    (hb : s.block.bitCursor = 0) (hwf : s.block.storage.wf = true) (hw : s.block.writeCursor < s.cfg.capacity)
    (hin : s.inputs = (bitsMsbFirst (v.setWidth 32) 8).map Event.bit ++ rest) :
    ∃ t : State, Sys2Proof.core.run 8 s = .next t ∧ t.cfg = s.cfg ∧ t.source = s.source ∧
      t.inputs = rest ∧
      t.block = { s.block with storage := t.block.storage, writeCursor := s.block.writeCursor + 1 } ∧
      t.block.storage.wf = true ∧
      (∀ i, i ≠ s.block.writeCursor → t.block.storage.read i = s.block.storage.read i) ∧
      (∀ k, k < 8 → (t.block.storage.read s.block.writeCursor).getLsbD k =
        v.getLsbD (match s.cfg.xform with | .reverse8 => k | .identity => 7 - k)) ∧
      t.rsp = some ⟨.ok, 0#32⟩ := by
  obtain ⟨t, h1, h2, h2', h3, h4, h5, h6, h7, -⟩ := run_byte_prefix s v rest ha hb hwf hw hin 7 (by omega)
  rw [bitsMsbFirst_drop _ _ _ (by omega), List.map_cons, List.cons_append] at h3
  have hwt : t.block.writeCursor = s.block.writeCursor := by rw [h4]
  have hbt : t.block.bitCursor = 7 := by rw [h4]; rfl
  obtain ⟨b', hp, hs⟩ := step_bit_pack t _ _ h3 (by rw [h4]; exact ha) (by rw [hwt, h2]; exact hw)
  refine ⟨_, run_concat 7 s t _ h1 hs, h2, h2', ?_, ?_, hp.canonical h5, fun i hi => ?_, fun k hk => ?_, rfl⟩
  · simp only [succeed_inputs]
    rw [List.drop_eq_nil_of_le (by rw [bitsMsbFirst_length])]; rfl
  · simp only [succeed_block]
    have e1 := hp.syncWord; have e2 := hp.syncMask; have e3 := hp.syncLength; have e4 := hp.shiftRegister
    have e5 := hp.acquired; have e6 := hp.readCursor; have e7 := hp.bitCursor; have e8 := hp.writeCursor
    rw [if_pos hbt] at e7 e8
    rw [h4] at e1 e2 e3 e4 e5 e6 e8
    exact block_ext e1 e2 e3 e4 e5 rfl e8 e6 (e7.trans hb.symm)
  · simp only [succeed_block]
    rw [hp.read_other h5 i (by rw [hwt]; exact hi), h6 i hi]
  · simp only [succeed_block]
    have key : ∀ k, k < 8 →
        (putBit (t.block.storage.read t.block.writeCursor) t.block.bitCursor
          ((v.setWidth 32).getLsbD (8 - 1 - 7))).getLsbD k = v.getLsbD (7 - k) := by
      intro k hk
      rw [putBit_getLsbD _ _ _ _ hk, hbt, hwt]
      split_ifs with h
      · have : k = 7 := h
        subst this; simp
      · have : k ≠ 7 := h
        exact h7 k (by omega)
    rw [← hwt, hp.read_at h5 (by rw [hwt, h2]; exact hw), packedByte, if_pos hbt, h2]
    cases s.cfg.xform
    · simp only [xformByte]
      rw [reverse8_getLsbD _ _ hk, key _ (by omega)]; congr 1; omega
    · simp only [xformByte]; exact key k hk

/-- The window after one more bit of a word fed most significant bit first (20_memory.md R53). -/
theorem shiftIn_prefix (w : Word) (n j : Nat) (h : j < n) :
    shiftIn (w >>> (n - j)) (w.getLsbD (n - 1 - j)) = w >>> (n - (j + 1)) := by
  apply BitVec.eq_of_toNat_eq
  rw [shiftIn_toNat, BitVec.toNat_ushiftRight, BitVec.toNat_ushiftRight, Nat.shiftRight_eq_div_pow,
    Nat.shiftRight_eq_div_pow]
  have h1 : n - j = (n - (j + 1)) + 1 := by omega
  rw [h1, Nat.pow_succ, ← Nat.div_div_eq_div_mul]
  have hb : (w.getLsbD (n - 1 - j)).toNat = w.toNat / 2 ^ (n - (j + 1)) % 2 := by
    rw [BitVec.getLsbD, Nat.testBit_eq_decide_div_mod_eq, show n - 1 - j = n - (j + 1) by omega]
    have := Nat.mod_two_eq_zero_or_one (w.toNat / 2 ^ (n - (j + 1)))
    rcases this with h | h <;> simp [h]
  rw [hb]
  have hlt : w.toNat / 2 ^ (n - (j + 1)) ≤ w.toNat := Nat.div_le_self _ _
  have := w.isLt
  rw [Nat.mod_eq_of_lt (by omega)]
  omega

/-! ## The queue of unread bytes (10_state.md R37) -/

theorem unread_length (b : Block) : b.unread.length = b.writeCursor - b.readCursor := by
  simp [Block.unread]

/-- Equal cursors: nothing unread. -/
theorem unread_eq_nil {b : Block} (h : b.readCursor = b.writeCursor) : b.unread = [] := by
  simp [Block.unread, h]

/-- The queue depends on the cursors and the complete bytes between them only. -/
theorem unread_congr {b c : Block} (h1 : b.writeCursor = c.writeCursor) (h2 : b.readCursor = c.readCursor)
    (h3 : ∀ i, b.readCursor ≤ i → i < b.writeCursor → b.storage.read i = c.storage.read i) :
    b.unread = c.unread := by
  unfold Block.unread
  rw [← h1, ← h2]
  apply List.map_congr_left
  intro k hk
  rw [List.mem_range] at hk
  rw [h3 _ (by omega) (by omega)]

/-- The oldest unread byte first. -/
theorem unread_cons {b : Block} (h : b.readCursor < b.writeCursor) :
    b.unread = b.storage.read b.readCursor :: Block.unread { b with readCursor := b.readCursor + 1 } := by
  unfold Block.unread
  obtain ⟨n, hn⟩ : ∃ n, b.writeCursor - b.readCursor = n + 1 := ⟨b.writeCursor - b.readCursor - 1, by omega⟩
  have h' : b.writeCursor - (b.readCursor + 1) = n := by omega
  simp only [hn, h', List.range_succ_eq_map, List.map_cons, List.map_map, Nat.add_zero]
  congr 1
  apply List.map_congr_left
  intro k _
  simp only [Function.comp]
  congr 1; omega

/-! ## Agreement (10_state.md R38, R39) -/

/-- Packing the same bit into two blocks that agree leaves them agreeing. -/
theorem Block.Agree.pack {cfg : Config} {b c b' c' : Block} {bit : Bool} (h : b.Agree c)
    (hb : PackResult cfg b bit b') (hc : PackResult cfg c bit c')
    (wb : b.storage.wf = true) (wc : c.storage.wf = true) (hlt : b.writeCursor < cfg.capacity) :
    b'.Agree c' := by
  have hbits : ∀ k, k ≤ b.bitCursor.val →
      (putBit (b.storage.read b.writeCursor) b.bitCursor bit).getLsbD k =
        (putBit (c.storage.read c.writeCursor) c.bitCursor bit).getLsbD k := by
    intro k hk
    have := b.bitCursor.isLt
    rw [putBit_getLsbD _ _ _ _ (by omega), putBit_getLsbD _ _ _ _ (by omega), ← h.bitCursor, ← h.writeCursor]
    split_ifs with e
    · rfl
    · exact h.packed k (by omega)
  refine ⟨?_, ?_, ?_, ?_, ?_, ?_, ?_, ?_, fun i hi => ?_, fun k hk => ?_⟩
  · rw [hb.syncWord, hc.syncWord, h.syncWord]
  · rw [hb.syncMask, hc.syncMask, h.syncMask]
  · rw [hb.syncLength, hc.syncLength, h.syncLength]
  · rw [hb.shiftRegister, hc.shiftRegister, h.shiftRegister]
  · rw [hb.acquired, hc.acquired, h.acquired]
  · rw [hb.writeCursor, hc.writeCursor, h.writeCursor, h.bitCursor]
  · rw [hb.readCursor, hc.readCursor, h.readCursor]
  · rw [hb.bitCursor, hc.bitCursor, h.bitCursor]
  · rw [hb.reads wb, hc.reads wc, ← h.writeCursor]
    simp only [hlt, and_true]
    split_ifs with e
    · have h7 : b.bitCursor = 7 := by
        by_contra h7
        rw [hb.writeCursor, if_neg h7] at hi; omega
      rw [packedByte, packedByte, ← h.bitCursor, if_pos h7, if_pos h7]
      congr 1
      apply BitVec.eq_of_getLsbD_eq
      intro k hk
      have := hbits k (by rw [h7]; show k ≤ 7; omega)
      rw [← h.bitCursor] at this
      exact this
    · refine h.complete i ?_
      rw [hb.writeCursor] at hi
      split_ifs at hi <;> omega
  · have h7 : b.bitCursor ≠ 7 := by
      intro h7; rw [hb.bitCursor, if_pos h7] at hk; exact absurd hk (Nat.not_lt_zero _)
    rw [hb.bitCursor, if_neg h7] at hk
    have hk' : k ≤ b.bitCursor.val := by
      have h8 : b.bitCursor.val ≠ 7 := fun e => h7 (Fin.ext e)
      have h9 := b.bitCursor.isLt
      have : (b.bitCursor + 1).val = b.bitCursor.val + 1 := by rw [Fin.val_add]; simp; omega
      omega
    rw [hb.writeCursor, if_neg h7, hb.read_at wb hlt, h.writeCursor, hc.read_at wc (h.writeCursor ▸ hlt), packedByte,
      packedByte, ← h.bitCursor, if_neg h7, if_neg h7]
    have := hbits k hk'
    rw [← h.bitCursor] at this; exact this

end Sys2Proof.Machine
end

