-- ==== Sys2Proof/Tests/Slice0.lean ====
section
/-! SUPPORT. Tests of one command each, expected results from 95_test_vectors.md (V-...), and for every statement of
Obligations.lean that has hypotheses a concrete state and operands that meet them. -/

namespace Sys2Proof.Tests

open Sys2Proof.Machine

/-! ## Helpers -/

/-- The next state, if there is one. -/
def after : Host.Outcome State Fault Refusal → Option State
  | .next s => some s
  | .fault _ => none
  | .refused _ => none

/-- The response of a command, if it goes on. -/
def response (i : Instr) (s : State) : Option Response := (after (exec i s)).bind (·.rsp)

/-- The block after a command, if it goes on. -/
def blockAfter (i : Instr) (s : State) : Option Block := (after (exec i s)).map (·.block)

/-- `CAPACITY = 2`, just after reset (V-E). -/
def base : State := State.powerUp { Config.thisHardware with capacity := 2 } []

/-- `HAS_RNG = 0`. -/
def noRng : State := State.powerUp { Config.thisHardware with hasRng := false } []

/-- `ENTROPY_MODE = STUB_ZERO`. -/
def stubbed : State := State.powerUp { Config.thisHardware with entropyMode := .stubZero } []

/-- Seeking for 0xA5A5 of 16 bits with the window `sr`. -/
def seeking (sr : Word) : State :=
  { base with block := { base.block with
      syncWord := 0xA5A5#32, syncMask := 0xFFFF#32, syncLength := 16#6, acquired := false, shiftRegister := sr } }

/-- Acquired with a 16-bit sync word, storage `12 34`, and the cursors given. -/
def packed (wc rc : Nat) (bc : Fin 8) : State :=
  { base with block := { base.block with
      syncWord := 0xA5A5#32, syncMask := 0xFFFF#32, syncLength := 16#6, shiftRegister := 0xA5A5#32
      storage := [(0, 0x12#8), (1, 0x34#8)], writeCursor := wc, readCursor := rc, bitCursor := bc } }

/-- The entropy source answers `es` next. -/
def entropy (es : List Byte) : State := { base with source := { pending := es, drawn := 0 } }

/-- A state with `es` as the events to come. -/
def events (s : State) (es : List Event) : State := { s with inputs := es }

/-- Packing, with the all-zero sync word of 8 bits (V-D4). -/
def zeroWord : State :=
  { base with block := { base.block with syncMask := 0xFF#32, syncLength := 8#6, shiftRegister := 0xA5#32 } }

/-- The invariant as a check. -/
def invCheck (s : State) : Bool :=
  s.cfg.wf && decide (s.block.syncLength.toNat ≤ 32) && (s.block.syncLength != 0#6 || s.block.acquired) &&
  (s.block.syncMask == lowMask s.block.syncLength.toNat) && decide (s.block.readCursor ≤ s.block.writeCursor) &&
  decide (s.block.writeCursor ≤ s.cfg.capacity) &&
  (s.block.writeCursor != s.cfg.capacity || s.block.bitCursor == 0) && s.block.storage.wf &&
  s.block.storage.within s.cfg.capacity

theorem inv_of_check (s : State) (h : invCheck s = true) : s.Inv := by
  simp only [invCheck, Bool.and_eq_true, decide_eq_true_eq, Bool.or_eq_true, bne_iff_ne, beq_iff_eq] at h
  obtain ⟨⟨⟨⟨⟨⟨⟨⟨h1, h2⟩, h3⟩, h4⟩, h5⟩, h6⟩, h7⟩, h8⟩, h9⟩ := h
  exact ⟨h1, h2, fun e => h3.resolve_left (fun n => n e), h4, h5, h6, fun e => h7.resolve_left (fun n => n e), h8, h9⟩

/-! ## WellFormed: an ill-formed term for each check (R7, R15, R69 to R71, R77) -/

theorem test_cfgsync_length_33_bits_refused : (Instr.cfgsync 0#32 4294967296).wf = false := by decide
theorem test_randmax_above_range_refused : (Instr.randmax 2147483648).wf = false := by decide
theorem test_randmax_below_range_refused : (Instr.randmax (-2147483649)).wf = false := by decide
theorem test_randrange_min_refused : (Instr.randrange (-2147483649) 0).wf = false := by decide
theorem test_randrange_max_refused : (Instr.randrange 0 2147483648).wf = false := by decide
theorem test_capacity_zero_refused : ({ Config.thisHardware with capacity := 0 } : Config).wf = false := by decide
theorem test_capacity_too_large_refused :
    ({ Config.thisHardware with capacity := 4294967296 } : Config).wf = false := by decide
theorem test_feed_zero_bits_refused : ({ v := 0#32, n := 0 } : Feed).wf = false := by decide
theorem test_feed_33_bits_refused : ({ v := 0#32, n := 33 } : Feed).wf = false := by decide
theorem test_feed_value_too_wide_refused : ({ v := 8#32, n := 3 } : Feed).wf = false := by decide

/-! ## Decoding: words written out from R64 and R68 to R72 -/

/-- V-B1: `01 0000A5A5 00000010`. -/
theorem test_decode_cfgsync : decode 0x010000A5A500000010#72 = .command (.cfgsync 0xA5A5#32 16) := by decide
/-- V-B22: all 32 bits of `b` are the length. -/
theorem test_decode_cfgsync_wide : decode 0x01FFFFFFFF00000100#72 = .command (.cfgsync 0xFFFFFFFF#32 256) := by
  decide
/-- V-B3: `02 DEADBEEF 12345678`. -/
theorem test_decode_dropsync : decode 0x02DEADBEEF12345678#72 = .command .dropsync := by decide
/-- V-B5: only `b[0]` is read. -/
theorem test_decode_ingest : decode 0x03FFFFFFFFFFFFFFFE#72 = .command (.ingest false) := by decide
/-- V-B7. -/
theorem test_decode_avail : decode 0x040000000000000000#72 = .command .avail := by decide
/-- V-B9. -/
theorem test_decode_consume : decode 0x050000000000000003#72 = .command (.consume true) := by decide
/-- V-B10. -/
theorem test_decode_randmax : decode 0x1000000000FFFFFFF9#72 = .command (.randmax (-7)) := by decide
/-- V-B12. -/
theorem test_decode_randrange : decode 0x11FFFFFFFB00000005#72 = .command (.randrange (-5) 5) := by decide
/-- V-B13. -/
theorem test_decode_randbyte : decode 0x120000000000000000#72 = .command .randbyte := by decide
/-- V-B14, V-B16, V-B17: reserved opcodes. -/
theorem test_decode_reserved :
    decode 0x000000000000000000#72 = .reserved 0x00#8 ∧ decode 0x0FFFFFFFFFFFFFFFFF#72 = .reserved 0x0F#8 ∧
    decode 0x130000000000000000#72 = .reserved 0x13#8 := by decide
/-- The words of P4, written by the encoder (R76). -/
theorem test_encode_words :
    encode (.randrange (-5) 5) = 0x11FFFFFFFB00000005#72 ∧ encode (.cfgsync 0x2D#32 33) = 0x010000002D00000021#72 ∧
    encode (.consume true) = 0x050000000000000001#72 := by decide
/-- The assembler's form (R76). -/
theorem test_asm_words :
    (Instr.cfgsync 0xA5A5#32 16).asm = "CFGSYNC 42405, 16" ∧ (Instr.randrange (-5) 5).asm = "RANDRANGE -5, 5" := by
  decide
/-- FEED 0xB, 4 sends 1, 0, 1, 1 (R77). -/
theorem test_feed_order : ({ v := 0xB#32, n := 4 } : Feed).expand =
    [.ingest true, .ingest false, .ingest true, .ingest true] := by decide
/-- A table word placed after reset is decoded and run by the very next step. -/
theorem test_fetch_word : decodeTableWord 72 0x010000A5A500000010 = some (.cfgsync 0xA5A5#32 16) ∧
    (after (step (State.reset.withFetchWord 72 0x010000A5A500000010))).map (·.block.syncWord) = some 0xA5A5#32 := by
  decide
/-- A reserved table word is refused by the decoder and answered `UNSUPPORTED` by the step (R72). -/
theorem test_fetch_reserved : decodeTableWord 72 0x060000000000000000 = none ∧
    (after (step (State.reset.withFetchWord 72 0x060000000000000000))).bind (·.rsp) =
      some ⟨.unsupported, 0#32⟩ := by decide

/-! ## Primitives (V-A) -/

/-- V-A1, V-A5, V-A6. -/
theorem test_low_mask : lowMask 0 = 0#32 ∧ lowMask 31 = 0x7FFFFFFF#32 ∧ lowMask 32 = 0xFFFFFFFF#32 := by decide
/-- V-A8, V-A9. -/
theorem test_shift_in : shiftIn 0x80000001#32 true = 3#32 ∧ shiftIn 0xFFFFFFFF#32 false = 0xFFFFFFFE#32 := by decide
/-- V-A14, V-A15, V-A20. -/
theorem test_transform : reverse8 0xD2#8 = 0x4B#8 ∧ reverse8 0x48#8 = 0x12#8 ∧
    xformByte .identity 0xD2#8 = 0xD2#8 := by decide
/-- V-A21, V-A22. -/
theorem test_signed_reading : s32 0x80000000#32 = -2147483648 ∧ s32 0x7FFFFFFF#32 = 2147483647 ∧
    u32 (-5) = 0xFFFFFFFB#32 := by decide
/-- V-A23, V-A26, V-A27, V-A29. -/
theorem test_signed_arithmetic : guardedAbs (-2147483648) = 2147483647 ∧ wrap32 4294967295 = -1 ∧
    wrap32 2147483648 = -2147483648 ∧ truncRem 10 (-7) = 3 := by decide

/-! ## The commands -/

/-- V-C2: length 0 sets the flag and keeps the window. -/
theorem test_cfgsync_pass_through : blockAfter (.cfgsync 0#32 0) (seeking 0xA5A#32) =
    some { base.block with shiftRegister := 0xA5A#32 } := by decide
/-- V-C5: length 33 fails and changes nothing. -/
theorem test_cfgsync_too_long : response (.cfgsync 0x2D#32 33) (seeking 0x1234#32) =
    some ⟨.invalidSyncWord, 0#32⟩ ∧
    blockAfter (.cfgsync 0x2D#32 33) (seeking 0x1234#32) = some (seeking 0x1234#32).block := by decide
/-- V-C9: the cursors are kept. -/
theorem test_dropsync_seeks : blockAfter .dropsync (packed 2 1 3) =
    some { (packed 2 1 3).block with acquired := false, shiftRegister := 0#32 } := by decide
/-- V-C10. -/
theorem test_dropsync_pass_through : blockAfter .dropsync base = some base.block := by decide
/-- V-D10: bits above the length do not matter. -/
theorem test_ingest_matches : blockAfter (.ingest true) (seeking 0xFFFF52D2#32) =
    some { (seeking 0xFFFEA5A5#32).block with acquired := true } := by decide
/-- V-E3: the eighth bit commits `Reverse8(D2) = 4B`. -/
theorem test_ingest_commits :
    blockAfter (.ingest true) { base with block := { base.block with storage := [(0, 0x52#8)], bitCursor := 7 } } =
      some { base.block with storage := [(0, 0x4B#8)], writeCursor := 1 } := by decide
/-- V-F1: two bytes unread. -/
theorem test_avail_counts : response .avail (packed 2 0 0) = some ⟨.ok, 2#32⟩ := by decide
/-- V-F5: the byte, the cursor, the drop. -/
theorem test_consume_drops : response (.consume true) (packed 2 1 0) = some ⟨.ok, 0x34#32⟩ ∧
    blockAfter (.consume true) (packed 2 1 0) =
      some { (packed 2 2 0).block with acquired := false, shiftRegister := 0#32 } := by decide
/-- V-F4: an empty store fails without dropping. -/
theorem test_consume_empty : response (.consume true) (packed 2 2 0) = some ⟨.bufferEmpty, 0#32⟩ ∧
    blockAfter (.consume true) (packed 2 2 0) = some (packed 2 2 0).block := by decide
/-- V-G6: the guard. -/
theorem test_randmax_guard : response (.randmax 10) (entropy [0x80#8, 0#8, 0#8, 0#8]) = some ⟨.ok, 7#32⟩ := by
  decide
/-- V-G12: a negative bound (decision D20). -/
theorem test_randmax_negative : response (.randmax (-7)) (entropy [0#8, 0#8, 0#8, 0x0A#8]) = some ⟨.ok, 3#32⟩ := by
  decide
/-- V-G22. -/
theorem test_randrange : response (.randrange (-5) 5) (entropy [0#8, 0#8, 1#8, 7#8]) =
    some ⟨.ok, 0xFFFFFFFE#32⟩ := by decide
/-- V-G28: a span that wraps (decision D21). -/
theorem test_randrange_wraps : response (.randrange (-2147483648) 0) (entropy [0x80#8, 0#8, 0#8, 0#8]) =
    some ⟨.ok, 0xFFFFFFFF#32⟩ := by decide
/-- V-G33: zero-extended. -/
theorem test_randbyte : response .randbyte (entropy [0xFF#8]) = some ⟨.ok, 0xFF#32⟩ := by decide
/-- V-H2: RESET keeps the store and nothing else. -/
theorem test_reset : (after (step (events (packed 2 1 5) [.reset]))).map (·.block) =
    some { base.block with storage := [(0, 0x12#8), (1, 0x34#8)] } := by decide
/-- V-E10: rewind, then the bit into byte 0. -/
theorem test_rewind : blockAfter (.ingest true) (packed 2 2 0) =
    some { (packed 0 0 1).block with storage := [(0, 0x13#8), (1, 0x34#8)] } := by decide

/-! ## Witnesses: a concrete state and operands that meet the hypotheses of each statement, clause by clause -/

theorem goes_on {o : Host.Outcome State Fault Refusal} (h : (after o).isSome = true) : ∃ t, o = .next t := by
  cases o with
  | next s => exact ⟨s, rfl⟩
  | fault r => cases h
  | refused r => cases h

/-- Every constructor at the ends of its operands' ranges. -/
theorem witness_DecodeOfEncodeIsTheCommand :
    (Instr.cfgsync 0xFFFFFFFF#32 4294967295).wf = true ∧ Instr.dropsync.wf = true ∧ (Instr.ingest true).wf = true ∧
    Instr.avail.wf = true ∧ (Instr.consume true).wf = true ∧ (Instr.randmax (-2147483648)).wf = true ∧
    (Instr.randrange (-2147483648) 2147483647).wf = true ∧ Instr.randbyte.wf = true := by decide

theorem witness_EncodeRecoversEveryReadBit :
    decode 0x03FFFFFFFFFFFFFFFE#72 = .command (.ingest false) ∧
    decode 0x10FFFFFFFF80000000#72 = .command (.randmax (-2147483648)) := by decide

theorem witness_IgnoredBitsHaveNoEffect :
    decode 0x03FFFFFFFFFFFFFFFE#72 = .command (.ingest false) ∧
    0x03FFFFFFFFFFFFFFFE#72 &&& (Instr.ingest false).usedBits =
      0x030000000000000000#72 &&& (Instr.ingest false).usedBits := by decide

theorem witness_StepRunsTheDecodedCommand :
    (events base [.command .consumer 0x040000000000000000#72]).inputs =
      [.command .consumer 0x040000000000000000#72] ∧
    decode 0x040000000000000000#72 = .command .avail ∧
    decodeTableWord 72 0x11FFFFFFFB00000005 = some (.randrange (-5) 5) := by decide

theorem witness_ReservedWordAnswersUnsupported :
    (events base [.command .controller 0x06FFFFFFFFFFFFFFFF#72]).inputs =
      [.command .controller 0x06FFFFFFFFFFFFFFFF#72] ∧
    decode 0x06FFFFFFFFFFFFFFFF#72 = .reserved 6#8 ∧ decode 0xFF0000000000000000#72 = .reserved 0xFF#8 := by decide

theorem witness_RngCommandsAreUnsupportedWithoutRng : noRng.cfg.hasRng = false := by decide

theorem witness_FeedSendsTheBitsMostSignificantFirst :
    ({ v := 1#32, n := 1 } : Feed).wf = true ∧ ({ v := 0xFFFFFFFF#32, n := 32 } : Feed).wf = true := by decide

theorem witness_ShiftInDropsTheOldTopBit : (0 : Nat) < 31 ∧ (30 : Nat) < 31 := by decide

/-- Both ends of the range, and the guard. -/
theorem witness_GuardedAbsNeverOverflows :
    (-2 ^ 31 ≤ (-2147483648 : Int) ∧ (-2147483648 : Int) ≤ 2 ^ 31 - 1) ∧
    (-2 ^ 31 ≤ (2147483647 : Int) ∧ (2147483647 : Int) ≤ 2 ^ 31 - 1) ∧
    (-2 ^ 31 ≤ (-1 : Int) ∧ (-1 : Int) ≤ 2 ^ 31 - 1) := by decide

theorem witness_MaskWrapAndRemainderMeetTheirRules :
    (0 : Nat) ≤ 32 ∧ (32 : Nat) ≤ 32 ∧ (0 : Int) ≤ 0 ∧ (0 : Int) ≤ 2147483647 ∧ (-2147483648 : Int) ≠ 0 ∧
    (1 : Int) ≠ 0 := by decide

theorem witness_ReverseMirrorsTheBits : (0 : Nat) ≤ 7 ∧ (7 : Nat) ≤ 7 := by decide

/-- Length 33 and the greatest length; length 0, 1 and 32; and a state to repeat the command from. -/
theorem witness_CfgsyncResult :
    ((33 : Nat) < 2 ^ 32 ∧ 32 < 33) ∧ ((4294967295 : Nat) < 2 ^ 32 ∧ 32 < 4294967295) ∧
    ((0 : Nat) < 2 ^ 32 ∧ 0 ≤ 32) ∧ ((1 : Nat) < 2 ^ 32 ∧ 1 ≤ 32) ∧ ((32 : Nat) < 2 ^ 32 ∧ 32 ≤ 32) ∧
    (after (exec (.cfgsync 0xA5A5#32 16) base)).isSome = true ∧
    (base.block.syncLength.toNat = 0 ∧ base.block.acquired = true ∧
      (after (exec (.ingest true) base)).isSome = true) := by decide

theorem witness_DropsyncResult :
    base.block.syncLength.toNat = 0 ∧ 0 < (packed 2 1 3).block.syncLength.toNat ∧
    (after (exec .dropsync (packed 2 1 3))).isSome = true := by decide

theorem witness_CfgsyncThenDropsyncStartsASearch :
    (1 ≤ 1 ∧ 1 ≤ 32 ∧ (1 : Nat) ≤ 32 ∧ 32 ≤ 32) ∧
    (events base [.command .controller (encode (.cfgsync 0xDEADBEEF#32 32)),
      .command .controller (encode .dropsync)]).inputs =
      [.command .controller (encode (.cfgsync 0xDEADBEEF#32 32)), .command .controller (encode .dropsync)] := by
  decide

/-- V-D5: the word 0x1A5 with length 8. -/
def overwide : State :=
  { base with
    block := { base.block with syncWord := 0x1A5#32, syncMask := 0xFF#32, syncLength := 8#6, acquired := false }
    inputs := [Event.bit true, Event.bit false] }

theorem witness_OverwideSyncWordNeverAcquires :
    overwide.block.acquired = false ∧ overwide.block.syncMask = lowMask overwide.block.syncLength.toNat ∧
    overwide.block.syncLength.toNat ≤ 8 ∧ overwide.block.syncWord.getLsbD 8 = true ∧
    overwide.inputs = [true, false].map Event.bit ++ [] ∧ [true, false] ≠ [] := by decide

/-- A match, a bit that does not match, and a command that leaves the search going. -/
theorem witness_IngestSeekingResult :
    (seeking 0x52D2#32).block.acquired = false ∧
    (0x52D2#32 <<< 1 ||| (if true then 1#32 else 0#32)) &&& (seeking 0x52D2#32).block.syncMask =
      (seeking 0x52D2#32).block.syncWord ∧
    (0x52D2#32 <<< 1 ||| (if false then 1#32 else 0#32)) &&& (seeking 0x52D2#32).block.syncMask ≠
      (seeking 0x52D2#32).block.syncWord ∧
    (∀ b, Instr.cfgsync 1#32 1 ≠ .ingest b) ∧ (∀ v, Instr.cfgsync 1#32 1 ≠ .cfgsync v 0) ∧
    ∃ t, exec (.cfgsync 1#32 1) (seeking 0x52D2#32) = .next t :=
  ⟨by decide, by decide, by decide, fun _ h => Instr.noConfusion h, fun _ h => (by injection h with _ h; cases h),
    goes_on (by decide)⟩

/-- The eighth bit of the last byte, and the first bit of the first. -/
theorem witness_IngestPackingResult :
    ((packed 1 0 7).block.acquired = true ∧ (packed 1 0 7).block.writeCursor < (packed 1 0 7).cfg.capacity ∧
      (packed 1 0 7).block.storage.wf = true ∧ (packed 1 0 7).block.bitCursor = 7) ∧
    ((packed 0 0 0).block.acquired = true ∧ (packed 0 0 0).block.writeCursor < (packed 0 0 0).cfg.capacity ∧
      (packed 0 0 0).block.storage.wf = true ∧ (packed 0 0 0).block.bitCursor ≠ 7) := by decide

/-- V-E8 and V-E9. -/
theorem witness_IngestOnAFullUndrainedStoreOverflows :
    ((packed 2 0 0).block.acquired = true ∧ (packed 2 0 0).block.writeCursor = (packed 2 0 0).cfg.capacity ∧
      (packed 2 0 0).block.readCursor < (packed 2 0 0).block.writeCursor) ∧
    (packed 2 1 0).block.readCursor < (packed 2 1 0).block.writeCursor := by decide

/-- V-E10. -/
theorem witness_IngestOnAFullDrainedStoreRewinds :
    (packed 2 2 0).Inv ∧ (packed 2 2 0).block.acquired = true ∧
    (packed 2 2 0).block.writeCursor = (packed 2 2 0).cfg.capacity ∧
    (packed 2 2 0).block.readCursor = (packed 2 2 0).block.writeCursor :=
  ⟨inv_of_check _ (by decide), by decide⟩

/-- The greatest and the least count, a DROPSYNC, an acquisition, and a rewind. -/
theorem witness_AvailResult :
    (packed 2 0 0).Inv ∧ (packed 2 2 0).Inv ∧ (∃ t, exec .dropsync (packed 2 0 0) = .next t) ∧
    (after (exec (.ingest true) (seeking 0x52D2#32))).map (·.block.acquired) = some true ∧
    ((packed 2 2 0).block.acquired = true ∧ (packed 2 2 0).block.writeCursor = (packed 2 2 0).cfg.capacity ∧
      (packed 2 2 0).block.readCursor = (packed 2 2 0).block.writeCursor) ∧
    ∃ t, exec (.ingest true) (packed 2 2 0) = .next t :=
  ⟨inv_of_check _ (by decide), inv_of_check _ (by decide), goes_on (by decide), by decide, by decide,
    goes_on (by decide)⟩

/-- Empty; a byte with drop in a synchronized block; a byte with drop in pass-through mode. -/
theorem witness_ConsumeResult :
    (packed 2 2 0).block.readCursor = (packed 2 2 0).block.writeCursor ∧
    ((packed 2 1 0).block.readCursor < (packed 2 1 0).block.writeCursor ∧
      (packed 2 1 0).block.writeCursor ≤ (packed 2 1 0).cfg.capacity ∧
      0 < (packed 2 1 0).block.syncLength.toNat) := by decide

/-- The ends of the operand range and the two operands next to 0, with four bytes listed. -/
theorem witness_RandmaxResult :
    (entropy [0x80#8, 0#8, 0#8, 0#8]).cfg.hasRng = true ∧
    (entropy [0x80#8, 0#8, 0#8, 0#8]).cfg.entropyMode = .external ∧
    (entropy [0x80#8, 0#8, 0#8, 0#8]).source.pending = [0x80#8, 0#8, 0#8, 0#8] ∧
    (-2 ^ 31 ≤ (-2147483648 : Int) ∧ (-2147483648 : Int) ≤ 2 ^ 31 - 1 ∧ (-2147483648 : Int) ≠ 0) ∧
    (-2 ^ 31 ≤ (2147483647 : Int) ∧ (2147483647 : Int) ≤ 2 ^ 31 - 1 ∧ (2147483647 : Int) ≠ 0) ∧
    (-1 : Int) ≠ 0 ∧ (1 : Int) ≠ 0 := by decide

theorem witness_RandmaxStaysBelowItsBound :
    base.cfg.hasRng = true ∧ -2 ^ 31 ≤ (-2147483648 : Int) ∧ (2147483647 : Int) ≤ 2 ^ 31 - 1 ∧
    (-2 ^ 31 ≤ (0 : Int) ∧ (0 : Int) ≤ 2 ^ 31 - 1) := by decide

/-- `min = max`, `min = max - 1`, the widest span that fits and the narrowest that wraps, and four bytes listed. -/
theorem witness_RandrangeResult :
    (entropy [0x80#8, 0#8, 0#8, 0#8]).cfg.hasRng = true ∧
    (entropy [0x80#8, 0#8, 0#8, 0#8]).cfg.entropyMode = .external ∧
    (entropy [0x80#8, 0#8, 0#8, 0#8]).source.pending = [0x80#8, 0#8, 0#8, 0#8] ∧
    ((7 : Int) ≤ 7 ∧ -2 ^ 31 ≤ (7 : Int) ∧ (7 : Int) ≤ 2 ^ 31 - 1) ∧
    ((6 : Int) < 7 ∧ -2 ^ 31 ≤ (6 : Int)) ∧
    ((-2147483648 : Int) < -1 ∧ (-1 : Int) - (-2147483648) ≤ 2 ^ 31 - 1 ∧ -2 ^ 31 ≤ (-2147483648 : Int)) ∧
    ((-2147483648 : Int) < 0 ∧ ¬ (0 : Int) - (-2147483648) ≤ 2 ^ 31 - 1 ∧ (0 : Int) ≤ 2 ^ 31 - 1) := by decide

theorem witness_RandrangeStaysInItsRange :
    base.cfg.hasRng = true ∧ -2 ^ 31 ≤ (-2147483648 : Int) ∧ (-2147483648 : Int) ≤ 2 ^ 31 - 1 ∧
    -2 ^ 31 ≤ (2147483647 : Int) ∧ (2147483647 : Int) ≤ 2 ^ 31 - 1 ∧ (-2147483648 : Int) < 2147483647 ∧
    (-2147483648 : Int) ≤ 2147483647 := by decide

theorem witness_RandbyteResult :
    (stubbed.cfg.hasRng = true ∧ stubbed.cfg.entropyMode = .stubZero) ∧
    (entropy [0xFF#8]).cfg.hasRng = true ∧ (entropy [0xFF#8]).cfg.entropyMode = .external ∧
    (entropy [0xFF#8]).source.pending = [0xFF#8] := by decide

/-- A command of each kind goes on. -/
theorem witness_DrawsOfEachCommand :
    (∃ t, exec (.randmax 5) (entropy [1#8, 2#8, 3#8, 4#8]) = .next t) ∧ (∃ t, exec (.randmax 0) base = .next t) ∧
    (∃ t, exec (.randrange (-5) 5) (entropy [1#8, 2#8, 3#8, 4#8]) = .next t) ∧
    (∃ t, exec .randbyte noRng = .next t) ∧ (∃ t, exec (.ingest true) (packed 1 0 7) = .next t) ∧
    (Instr.randmax 5).wf = true ∧ (Instr.randrange (-5) 5).wf = true :=
  ⟨goes_on (by decide), goes_on (by decide), goes_on (by decide), goes_on (by decide), goes_on (by decide),
    by decide, by decide⟩

theorem witness_StubEntropyIsDegenerate :
    stubbed.cfg.hasRng = true ∧ stubbed.cfg.entropyMode = .stubZero ∧ -2 ^ 31 ≤ (-2147483648 : Int) ∧
    (2147483647 : Int) ≤ 2 ^ 31 - 1 := by decide

/-- Two different blocks, two different draw counts, the same four bytes. -/
theorem witness_SameOperandAndEntropyGiveTheSameResult :
    (entropy [1#8, 2#8, 3#8, 4#8]).cfg.hasRng = true ∧
    (entropy [1#8, 2#8, 3#8, 4#8]).cfg.entropyMode = .external ∧
    (∃ t, exec (.randmax 5) (entropy [1#8, 2#8, 3#8, 4#8]) = .next t) ∧
    (∃ t, exec (.randmax 5) { packed 2 1 3 with source := ⟨[1#8, 2#8, 3#8, 4#8, 9#8], 7⟩ } = .next t) ∧
    ({ packed 2 1 3 with source := ⟨[1#8, 2#8, 3#8, 4#8, 9#8], 7⟩ } : State).cfg.hasRng = true ∧
    ({ packed 2 1 3 with source := ⟨[1#8, 2#8, 3#8, 4#8, 9#8], 7⟩ } : State).source.pending =
      1#8 :: 2#8 :: 3#8 :: 4#8 :: [9#8] :=
  ⟨by decide, by decide, goes_on (by decide), goes_on (by decide), by decide, by decide⟩

theorem witness_GeneratorAndSynchronizerAreIndependent :
    (∃ t, exec (.randrange 0 5) (entropy [1#8, 2#8, 3#8, 4#8]) = .next t) ∧
    (∃ t, exec (.consume true) (packed 2 1 0) = .next t) := ⟨goes_on (by decide), goes_on (by decide)⟩

/-- One state for each side of the two causes. -/
theorem witness_InvalidSyncWordAndBufferEmptyHaveOneCauseEach :
    (after (step (events base [.command .controller (encode (.cfgsync 0x2D#32 33))]))).bind (·.rsp) =
      some ⟨.invalidSyncWord, 0#32⟩ ∧
    (after (step (events base [.command .controller (encode (.cfgsync 0x2D#32 32))]))).bind (·.rsp) =
      some ⟨.ok, 0#32⟩ ∧
    (after (step (events base [.command .consumer (encode (.consume false))]))).bind (·.rsp) =
      some ⟨.bufferEmpty, 0#32⟩ := by decide

theorem witness_OverflowAndUnsupportedHaveOneCauseEach :
    ((events (packed 2 1 0) [Event.bit true]).Inv ∧
      (after (step (events (packed 2 1 0) [Event.bit true]))).bind (·.rsp) = some ⟨.overflow, 0#32⟩) ∧
    (events noRng [.command .rngClient (encode .randbyte)]).Inv ∧
    (after (step (events noRng [.command .rngClient (encode .randbyte)]))).bind (·.rsp) =
      some ⟨.unsupported, 0#32⟩ :=
  ⟨⟨inv_of_check _ (by decide), by decide⟩, inv_of_check _ (by decide), by decide⟩

theorem witness_FailedCommandsChangeNothing :
    (events (packed 2 1 0) [Event.bit true]).inputs = [Event.bit true] ∧
    (after (step (events (packed 2 1 0) [Event.bit true]))).bind (·.rsp) = some ⟨.overflow, 0#32⟩ ∧
    Status.overflow ≠ .ok := by decide

theorem witness_EveryCommandGivesOneResponse :
    ∃ t, step (events (packed 2 1 0) [.command .consumer (encode (.consume false))]) = .next t :=
  goes_on (by decide)

/-- A step from the widest sync word, from a pass-through block, and from a full store. -/
theorem witness_LengthFlagAndCursorInvariantsHold :
    (∃ t, step (events (packed 2 2 0) [Event.bit true]) = .next t) ∧
    ((packed 2 2 0).cfg.wf = true ∧ (packed 2 2 0).block.readCursor ≤ (packed 2 2 0).block.writeCursor ∧
      (packed 2 2 0).block.writeCursor ≤ (packed 2 2 0).cfg.capacity) ∧
    (packed 2 2 0).block.syncLength.toNat ≤ 32 ∧
    ((events (seeking 0#32) [.command .controller (encode (.cfgsync 0#32 0))]).block.syncLength.toNat = 0 →
      (events (seeking 0#32) [.command .controller (encode (.cfgsync 0#32 0))]).block.acquired = true) ∧
    (after (step (events (seeking 0#32) [.command .controller (encode (.cfgsync 0#32 0))]))).map
      (·.block.syncLength.toNat) = some 0 :=
  ⟨goes_on (by decide), by decide, by decide, by decide, by decide⟩

theorem witness_EveryStepKeepsTheInvariant :
    (events (packed 2 2 0) [Event.bit true]).Inv ∧ (∃ t, step (events (packed 2 2 0) [Event.bit true]) = .next t) :=
  ⟨inv_of_check _ (by decide), goes_on (by decide)⟩

/-- The least and the greatest capacity, with the last index in use. -/
theorem witness_TheInvariantHoldsAtReset :
    (({ Config.thisHardware with capacity := 1 } : Config).wf = true ∧ Memory.wf [(0, 0xAB#8)] = true ∧
      Memory.within 1 [(0, 0xAB#8)] = true) ∧
    ({ Config.thisHardware with capacity := 4294967295 } : Config).wf = true ∧
    Memory.within 4294967295 [(4294967294, 0xAB#8)] = true := by decide

/-- Outside the invariant too: a bit and a read at an index that does not exist (R113). -/
theorem witness_NoStepStops :
    (events (packed 3 3 7) [Event.bit true]).inputs = [Event.bit true] ∧
    blockAfter (.ingest true) (packed 3 3 7) = some (packed 4 3 0).block ∧
    blockAfter (.consume false) (packed 3 2 0) = some (packed 3 3 0).block := by decide

/-- Each of the branches: a write, a drop in pass-through mode, a packing and a seeking bit, a consumed byte. -/
theorem witness_OnlyTheListedFieldsAreWritten :
    (∃ t, step (events base [.reset]) = .next t) ∧ (∃ t, exec (.cfgsync 1#32 1) base = .next t) ∧
    (∃ t, exec .dropsync base = .next t) ∧ (∃ t, exec (.ingest true) (packed 1 0 7) = .next t) ∧
    (∃ t, exec (.ingest true) (seeking 0x1234#32) = .next t) ∧ (∃ t, exec (.consume true) (packed 2 1 0) = .next t) :=
  ⟨goes_on (by decide), goes_on (by decide), goes_on (by decide), goes_on (by decide), goes_on (by decide),
    goes_on (by decide)⟩

/-- A packing bit with room, a seeking bit, and a bit on a full store. -/
theorem witness_OnlyTheByteAtTheWriteCursorIsStored :
    (∃ t, exec (.ingest true) (packed 1 0 7) = .next t) ∧
    ((packed 1 0 7).block.storage.wf = true ∧
      (packed 1 0 7).block.makeRoom (packed 1 0 7).cfg = some (packed 1 0 7).block) ∧
    (∃ t, exec (.ingest true) (seeking 0#32) = .next t) ∧ (seeking 0#32).block.acquired = false ∧
    (∃ t, exec (.ingest true) (packed 2 1 0) = .next t) ∧
    (packed 2 1 0).block.makeRoom (packed 2 1 0).cfg = none :=
  ⟨goes_on (by decide), by decide, goes_on (by decide), by decide, goes_on (by decide), by decide⟩

/-- A bit on a full store with an unread byte; and a full and drained store whose next event is no INGEST. -/
theorem witness_UnreadBytesAreNeverOverwritten :
    ((events (packed 2 1 0) [Event.bit true]).Inv ∧
      (∃ t, step (events (packed 2 1 0) [Event.bit true]) = .next t) ∧
      (events (packed 2 1 0) [Event.bit true]).block.readCursor ≤ 1 ∧
      1 < (events (packed 2 1 0) [Event.bit true]).block.writeCursor ∧
      (events (packed 2 1 0) [Event.bit true]).block.readCursor ≠
        (events (packed 2 1 0) [Event.bit true]).block.writeCursor) ∧
    (events (packed 2 2 0) [.reset]).Inv ∧ (∃ t, step (events (packed 2 2 0) [.reset]) = .next t) ∧
    ¬ (∃ a w rest bit, (events (packed 2 2 0) [.reset]).inputs = .command a w :: rest ∧
      decode w = .command (.ingest bit)) ∧
    1 < (events (packed 2 2 0) [.reset]).block.writeCursor :=
  ⟨⟨inv_of_check _ (by decide), goes_on (by decide), by decide, by decide, by decide⟩, inv_of_check _ (by decide),
    goes_on (by decide), fun ⟨_, _, _, _, h, _⟩ => (by cases h), by decide⟩

theorem witness_UnreadBytesFormAQueue :
    ((events (packed 1 0 7) [Event.bit true]).Inv ∧
      ∃ t, step (events (packed 1 0 7) [Event.bit true]) = .next t) ∧
    ((events (packed 2 0 0) [.command .consumer (encode (.consume false))]).Inv ∧
      (packed 2 0 0).block.unread = [0x12#8, 0x34#8] ∧
      ∃ t, step (events (packed 2 0 0) [.command .consumer (encode (.consume false))]) = .next t) ∧
    (events (packed 2 2 0) [.command .consumer (encode (.consume false))]).Inv ∧
    (packed 2 2 0).block.unread = [] :=
  ⟨⟨inv_of_check _ (by decide), goes_on (by decide)⟩,
    ⟨inv_of_check _ (by decide), by decide, goes_on (by decide)⟩, inv_of_check _ (by decide), by decide⟩

/-- Two machines at bit 3 of byte 1 that differ in the stale bits of that byte. -/
theorem witness_StaleBitsAreNeverObservable :
    (events (packed 1 0 3) [Event.bit true]).Inv ∧
    ({ events (packed 1 0 3) [Event.bit true] with block :=
      { (packed 1 0 3).block with storage := [(0, 0x12#8), (1, 0xFC#8)] } } : State).Inv ∧
    (events (packed 1 0 3) [Event.bit true]).Agree
      { events (packed 1 0 3) [Event.bit true] with block :=
        { (packed 1 0 3).block with storage := [(0, 0x12#8), (1, 0xFC#8)] } } ∧
    ∃ t, step (events (packed 1 0 3) [Event.bit true]) = .next t := by
  refine ⟨inv_of_check _ (by decide), inv_of_check _ (by decide),
    ⟨rfl, ⟨rfl, rfl, rfl, rfl, rfl, rfl, rfl, rfl, ?_, ?_⟩, rfl, rfl, rfl, rfl⟩, goes_on (by decide)⟩
  · have h : ∀ i, i < 1 → Memory.read [(0, 0x12#8), (1, 0x34#8)] i = Memory.read [(0, 0x12#8), (1, 0xFC#8)] i := by
      decide
    exact h
  · have h : ∀ k, k < 3 → (0x34#8).getLsbD k = (0xFC#8).getLsbD k := by decide
    exact h

theorem witness_FedBytesAreStoredInOrder :
    (packed 0 0 0).block.acquired = true ∧ (packed 0 0 0).block.bitCursor = 0 ∧
    (packed 0 0 0).block.storage.wf = true ∧
    (packed 0 0 0).block.writeCursor + [0x12#8, 0x34#8].length ≤ (packed 0 0 0).cfg.capacity ∧
    (events (packed 0 0 0) (Event.feedBytes [0x12#8, 0x34#8])).inputs = Event.feedBytes [0x12#8, 0x34#8] ++ [] := by
  decide

/-- Two bytes sent to the block just after reset, then two CONSUME. -/
def sentAndConsumed : State :=
  events base (Event.feedBytes [0x12#8, 0x34#8] ++
    (List.replicate [0x12#8, 0x34#8].length (.command .consumer (encode (.consume false))) ++ []))

theorem witness_TheConsumerReadsWhatTheProducerSent :
    sentAndConsumed.cfg.xform = .reverse8 ∧ sentAndConsumed.block.acquired = true ∧
    sentAndConsumed.block.storage.wf = true ∧ sentAndConsumed.block.writeCursor = 0 ∧
    sentAndConsumed.block.readCursor = 0 ∧ sentAndConsumed.block.bitCursor = 0 ∧
    [0x12#8, 0x34#8].length ≤ sentAndConsumed.cfg.capacity ∧
    sentAndConsumed.inputs = Event.feedBytes [0x12#8, 0x34#8] ++
      (List.replicate [0x12#8, 0x34#8].length (.command .consumer (encode (.consume false))) ++ []) ∧
    1 < [0x12#8, 0x34#8].length := by decide

/-- A capacity full of bits and one bit more, sent to the block just after reset. -/
def oneBitTooMany : State := events base (Event.feedBytes [0x12#8, 0x34#8] ++ [Event.bit true])

theorem witness_CapacityTimesEightBitsFitAndTheNextOverflows :
    oneBitTooMany.block.acquired = true ∧ oneBitTooMany.block.storage.wf = true ∧
    oneBitTooMany.block.writeCursor = 0 ∧ oneBitTooMany.block.readCursor = 0 ∧
    oneBitTooMany.block.bitCursor = 0 ∧ 1 ≤ oneBitTooMany.cfg.capacity ∧
    [0x12#8, 0x34#8].length = oneBitTooMany.cfg.capacity ∧
    oneBitTooMany.inputs = Event.feedBytes [0x12#8, 0x34#8] ++ [Event.bit true] ∧
    1 ≤ 8 * oneBitTooMany.cfg.capacity := by decide

/-- Seeking `w` of `length` bits with an empty window, and `w` the bits to come. -/
def fedSyncWord (w : Word) (length : Nat) : State :=
  { base with
    block := { base.block with
      syncWord := w, syncMask := lowMask length, syncLength := BitVec.ofNat 6 length, acquired := false }
    inputs := (bitsMsbFirst w length).map Event.bit }

/-- What TheSyncWordAcquiresAtItsLastBit asks of a state. -/
def seeksItsWord (s : State) (length : Nat) : Prop :=
  1 ≤ length ∧ length ≤ 32 ∧ s.block.acquired = false ∧ s.block.shiftRegister = 0#32 ∧
  s.block.syncMask = lowMask length ∧ s.block.syncWord.toNat < 2 ^ length ∧
  s.block.syncWord.getLsbD (length - 1) = true ∧
  s.inputs = (bitsMsbFirst s.block.syncWord length).map Event.bit ++ []

/-- Lengths 16, 1 and 32 (V-D1, V-D8, V-D7). -/
theorem witness_TheSyncWordAcquiresAtItsLastBit :
    seeksItsWord (fedSyncWord 0xA5A5#32 16) 16 ∧ seeksItsWord (fedSyncWord 1#32 1) 1 ∧
    seeksItsWord (fedSyncWord 0xFFFFFFFF#32 32) 32 := by
  unfold seeksItsWord; decide

/-- V-D4. -/
theorem witness_AnAllZeroSyncWordAcquiresAtTheFirstZero :
    0 < zeroWord.block.syncLength.toNat ∧ zeroWord.block.syncWord = 0#32 ∧
    ∃ t u, exec .dropsync zeroWord = .next t ∧ exec (.ingest false) t = .next u :=
  ⟨by decide, by decide, _, _, rfl, rfl⟩

/-- A match, a CFGSYNC with length 0 and a RESET set the flag; DROPSYNC and a dropping CONSUME clear it. -/
theorem witness_WhatSetsAndClearsTheFlag :
    ((seeking 0x52D2#32).block.acquired = false ∧
      (after (step (events (seeking 0x52D2#32) [Event.bit true]))).map (·.block.acquired) = some true) ∧
    (after (step (events (seeking 0#32) [.command .controller (encode (.cfgsync 0#32 0))]))).map
      (·.block.acquired) = some true ∧
    (after (step (events (seeking 0#32) [.reset]))).map (·.block.acquired) = some true ∧
    ((packed 2 1 0).block.acquired = true ∧
      (after (step (events (packed 2 1 0) [.command .controller (encode .dropsync)]))).map (·.block.acquired) =
        some false) ∧
    (after (step (events (packed 2 1 0) [.command .consumer (encode (.consume true))]))).map (·.block.acquired) =
      some false := by decide

theorem witness_ResetSetsEveryFieldButTheStore : (events (packed 2 1 5) [.reset]).inputs = .reset :: [] := by decide

theorem witness_EightBitsAfterResetMakeTheFirstByte :
    (events (packed 1 0 5) (.reset :: (Event.feedBytes [0x4B#8] ++ []))).Inv ∧
    (events (packed 1 0 5) (.reset :: (Event.feedBytes [0x4B#8] ++ []))).cfg.xform = .reverse8 ∧
    (events (packed 1 0 5) (.reset :: (Event.feedBytes [0x4B#8] ++ []))).inputs =
      .reset :: (Event.feedBytes [0x4B#8] ++ []) := ⟨inv_of_check _ (by decide), by decide⟩

theorem witness_EachAgentKeepsItsOwnOrder :
    ∃ t, step (events base [Event.bit true, .command .consumer (encode .avail), Event.bit false]) = .next t :=
  goes_on (by decide)

theorem witness_DisciplinedAgentsAreTheOnlyWriters :
    (Event.bit true).disciplined = true ∧ Event.reset.disciplined = true ∧
    (Event.command .controller (encode (.cfgsync 1#32 1))).disciplined = true ∧
    (Event.command .rngClient (encode .randbyte)).disciplined = true ∧
    (Event.command .producer 0x060000000000000000#72).disciplined = true ∧
    (∃ t, step (events base [Event.bit true]) = .next t) ∧
    ∃ t, step (events base [.command .rngClient (encode .randbyte)]) = .next t :=
  ⟨by decide, by decide, by decide, by decide, by decide, goes_on (by decide), goes_on (by decide)⟩

/-- A write of the unlisted value and one of another, and two lists that read alike. -/
theorem witness_StoreReadsBackWhatWasWritten :
    Memory.wf [(0, 0x12#8), (1, 0x34#8)] = true ∧
    Memory.write [(0, 0x12#8), (1, 0x34#8)] 0 0x00#8 = [(1, 0x34#8)] ∧
    Memory.write [(1, 0x34#8)] 0 0x12#8 = [(0, 0x12#8), (1, 0x34#8)] := by decide

end Sys2Proof.Tests
end

