-- ==== Sys2Proof/Proofs/ScopePrimitives.lean ====
section
/-! The primitives `ShiftIn` and `GuardedAbs` (00_scope.md section 7): what each bit and each value is. -/

namespace Sys2Proof.Machine

/-- The new bit enters at the bottom (R12). -/
@[simp] theorem shiftIn_getLsbD_zero (sr : Word) (bit : Bool) : (shiftIn sr bit).getLsbD 0 = bit := by
  simp [shiftIn]

/-- Every bit but the top one moves up by one place (R12). -/
theorem shiftIn_getLsbD_succ (sr : Word) (bit : Bool) {k : Nat} (h : k < 31) :
    (shiftIn sr bit).getLsbD (k + 1) = sr.getLsbD k := by
  suffices sr.getLsbD k = true → k + 1 < 32 by simpa [shiftIn]
  intro _
  omega

/-- The guard: `-2^31` has no absolute value in 32 bits (R16). -/
@[simp] theorem guardedAbs_min : guardedAbs (-2147483648) = 2147483647 := rfl

/-- Away from `-2^31`, `GuardedAbs` is the absolute value (R16). -/
theorem guardedAbs_eq_abs {i : Int} (h : i ≠ -2147483648) : guardedAbs i = |i| := by
  rw [guardedAbs, if_neg h]
  split_ifs with hneg
  · exact (abs_of_neg hneg).symm
  · exact (abs_of_nonneg (not_lt.mp hneg)).symm

/-- Settles O13: the guard and the absolute value are one lemma each, the range is `guardedAbs_range`. -/
theorem guardedAbsNeverOverflows : Obligations.GuardedAbsNeverOverflows := by
  unfold Obligations.GuardedAbsNeverOverflows
  norm_num only
  intro i hlo hhi
  refine ⟨?_, guardedAbs_range i ((inS32_iff i).mpr ⟨hlo, hhi⟩)⟩
  split_ifs with hmin
  · rw [hmin, guardedAbs_min]
  · exact guardedAbs_eq_abs hmin

/-- Settles O11: the number is `shiftIn_toNat`, the bits are those that moved up and the one that entered. -/
theorem shiftInDropsTheOldTopBit : Obligations.ShiftInDropsTheOldTopBit := by
  intro sr bit
  refine ⟨?_, fun k hk => shiftIn_getLsbD_succ sr bit hk, shiftIn_getLsbD_zero sr bit⟩
  rw [shiftIn_toNat]
  cases bit <;> rfl

end Sys2Proof.Machine
end

/-! The generator's result as a function of the operand and the entropy bytes alone (43_rng.md R103, R104), and with
it the absence of generator state (10_state.md R41). -/

namespace Sys2Proof.Machine

/-- The raw value from an external source that lists four bytes is those bytes in order (43_rng.md R104). -/
theorem drawWord_fst_external {cfg : Config} {src : Source} {e0 e1 e2 e3 : Byte} {rest : List Byte}
    (hmode : cfg.entropyMode = .external) (hbytes : src.pending = e0 :: e1 :: e2 :: e3 :: rest) :
    (src.drawWord cfg).1 = bigEndian e0 e1 e2 e3 := by
  obtain ⟨pending, drawn⟩ := src
  obtain rfl : pending = _ := hbytes
  rw [drawWord_external cfg hmode]

/-- RandMax depends on the operand and the four listed bytes, and on nothing else (43_rng.md R103). -/
theorem randMax_fst_external {cfg : Config} {src : Source} {e0 e1 e2 e3 : Byte} {rest : List Byte} (max : Int)
    (hmode : cfg.entropyMode = .external) (hbytes : src.pending = e0 :: e1 :: e2 :: e3 :: rest) :
    (src.randMax cfg max).1 =
      if max = 0 then 0 else truncRem (guardedAbs (s32 (bigEndian e0 e1 e2 e3))) max := by
  split_ifs with hmax
  · rw [hmax, randMax_zero]
  · rw [randMax_of_ne cfg src max hmax, drawWord_fst_external hmode hbytes]

/-- With the generator built in, RANDMAX answers `OK` with what RandMax gives (43_rng.md R103). -/
theorem exec_randmax_rsp {s t : State} {max : Int} (hrng : s.cfg.hasRng = true)
    (hexec : exec (.randmax max) s = .next t) :
    t.rsp = some ⟨.ok, u32 (s.source.randMax s.cfg max).1⟩ := by
  cases (execRandmax_of_rng s max hrng).symm.trans hexec
  exact succeedDrawn_rsp ..

/-- Settles O32: each response is that of RandMax on the same operand and the same four bytes. -/
theorem sameOperandAndEntropyGiveTheSameResult : Obligations.SameOperandAndEntropyGiveTheSameResult := by
  intro s s' t t' max e0 e1 e2 e3 rest rest' hrng hrng' hmode hmode' hbytes hbytes' hexec hexec'
  rw [exec_randmax_rsp hrng hexec, exec_randmax_rsp hrng' hexec',
    randMax_fst_external max hmode hbytes, randMax_fst_external max hmode' hbytes']

end Sys2Proof.Machine

/-! INGEST while packing with room (20_memory.md R49; 41_bit_ingest.md R90 to R92): the block it leaves, and the bits of
the byte at the write cursor. -/

namespace Sys2Proof.Machine

/-- A store that is not full needs no room made (41_bit_ingest.md R87). -/
theorem makeRoom_of_lt {cfg : Config} {b : Block} (h : b.writeCursor < cfg.capacity) : b.makeRoom cfg = some b :=
  if_neg h.ne

/-- While packing with room, INGEST answers `OK` and packs its bit (41_bit_ingest.md R90). -/
theorem execIngest_of_lt (bit : Bool) {s : State} (ha : s.block.acquired = true)
    (hlt : s.block.writeCursor < s.cfg.capacity) :
    execIngest bit s = .next (s.succeed (s.block.pack s.cfg bit) 0#32) := by
  rw [execIngest, if_pos ha, makeRoom_of_lt hlt]

/-- Pack writes the store, the write cursor and the bit cursor, and no other field (41_bit_ingest.md R90 to R92). -/
theorem PackResult.block_eq {cfg : Config} {b b' : Block} {bit : Bool} (h : PackResult cfg b bit b') :
    b' = { b with
      storage := b'.storage
      writeCursor := if b.bitCursor = 7 then b.writeCursor + 1 else b.writeCursor
      bitCursor := if b.bitCursor = 7 then 0 else b.bitCursor + 1 } :=
  block_ext h.syncWord h.syncMask h.syncLength h.shiftRegister h.acquired rfl h.writeCursor h.readCursor h.bitCursor

section PackedBits
variable (cfg : Config) {b : Block} (bit : Bool) {k : Nat}

/-- A byte not yet complete holds the new bit at the bit cursor, and its other bits as they were (R90). -/
theorem packedByte_getLsbD_of_ne (h7 : b.bitCursor ≠ 7) (hk : k < 8) :
    (packedByte cfg b bit).getLsbD k =
      if k = b.bitCursor.val then bit else (b.storage.read b.writeCursor).getLsbD k := by
  rw [packedByte, if_neg h7, putBit_getLsbD _ _ _ _ hk]

/-- A completed byte is the transform of the old one with its last bit put in (R92). -/
theorem packedByte_of_last (h7 : b.bitCursor = 7) :
    packedByte cfg b bit = xformByte cfg.xform (putBit (b.storage.read b.writeCursor) 7 bit) := by
  rw [packedByte, if_pos h7, h7]

end PackedBits

/-- `Reverse8` moves bit `k` to `7 - k` (R13). -/
theorem reverse8_getLsbD_sub (v : Byte) {k : Nat} (hk : k < 8) : (reverse8 v).getLsbD (7 - k) = v.getLsbD k := by
  rw [reverse8_getLsbD _ _ (by omega), Nat.sub_sub_self (by omega)]

/-- Settles O20: the block is `PackResult.block_eq`, the byte at the write cursor is `packedByte`. -/
theorem ingestPackingResult : Obligations.IngestPackingResult := by
  intro s bit ha hlt hwf
  have hpack := pack_result s.cfg s.block bit
  refine ⟨_, execIngest_of_lt bit ha hlt, congrArg (s.respond · .ok 0#32) hpack.block_eq,
    hpack.read_other hwf, fun h7 k hk => ?_, fun h7 k hk => ?_⟩
  · simp only [succeed_block]
    rw [hpack.read_at hwf hlt, packedByte_getLsbD_of_ne s.cfg bit h7 hk]
  · have hput := putBit_getLsbD (s.block.storage.read s.block.writeCursor) 7 bit k hk
    simp only [succeed_block]
    rw [hpack.read_at hwf hlt, packedByte_of_last s.cfg bit h7]
    cases s.cfg.xform with
    | reverse8 => exact (reverse8_getLsbD_sub _ hk).trans hput
    | identity => exact hput

end Sys2Proof.Machine

/-! CFGSYNC and DROPSYNC (40_sync_control.md R81, R82, R85): each is one write of the block, of the same effect when it
is sent twice; and no command of a packing block reads the stored sync word. -/

namespace Sys2Proof.Machine

section Configure
variable (b : Block) (value : Word) (length : Nat)

/-- CFGSYNC sets the flag at length 0 and else keeps it (R81). -/
theorem acquiredAfterConfigure_eq_or : b.acquiredAfterConfigure length = (b.acquired || decide (length = 0)) := by
  by_cases h : length = 0
  · rw [h, acquiredAfterConfigure_zero, decide_eq_true rfl, Bool.or_true]
  · rw [acquiredAfterConfigure_pos b length h, decide_eq_false h, Bool.or_false]

/-- The fields CFGSYNC writes, each by its value (R81). -/
theorem configure_eq : b.configure value length = { b with
    syncMask := BitVec.ofNat 32 (2 ^ length - 1)
    syncWord := value
    syncLength := BitVec.ofNat 6 length
    acquired := b.acquired || decide (length = 0) } := by
  rw [← acquiredAfterConfigure_eq_or]
  rfl

/-- Configuring twice is configuring once (R81). -/
theorem configure_configure : (b.configure value length).configure value length = b.configure value length := by
  simp only [configure_eq, Bool.or_assoc, Bool.or_self]

end Configure

section Exec
variable (s : State) (value : Word) {length : Nat}

/-- CFGSYNC fails on a length above 32 (R82). -/
theorem exec_cfgsync_of_gt (h : 32 < length) :
    exec (.cfgsync value length) s = .next (s.fail .invalidSyncWord) := if_pos h

/-- CFGSYNC configures with a length up to 32 (R81). -/
theorem exec_cfgsync_of_le (h : length ≤ 32) :
    exec (.cfgsync value length) s = .next (s.succeed (s.block.configure value length) 0#32) := if_neg h.not_gt

/-- DROPSYNC always answers `OK` (R85). -/
theorem exec_dropsync : exec .dropsync s = .next (s.succeed s.block.dropSync 0#32) := rfl

end Exec

/-- CFGSYNC sent twice is as sent once (R81). -/
theorem exec_cfgsync_again {s t : State} {value : Word} {length : Nat}
    (h : exec (.cfgsync value length) s = .next t) : exec (.cfgsync value length) t = .next t := by
  rcases lt_or_ge 32 length with hgt | hle
  · cases (exec_cfgsync_of_gt s value hgt).symm.trans h
    exact exec_cfgsync_of_gt _ value hgt
  · cases (exec_cfgsync_of_le s value hle).symm.trans h
    rw [exec_cfgsync_of_le _ value hle, succeed_block, configure_configure]
    rfl

/-- DROPSYNC sent twice is as sent once (R85). -/
theorem exec_dropsync_again {s t : State} (h : exec .dropsync s = .next t) : exec .dropsync t = .next t := by
  cases (exec_dropsync s).symm.trans h
  rw [exec_dropsync, succeed_block, dropSync_dropSync]
  rfl

/-! ## Another stored sync word -/

/-- The block with another sync word stored and every other field as it was. -/
def Block.withSyncWord (b : Block) (w : Word) : Block := { b with syncWord := w }

/-- The state with another sync word stored and every other field as it was. -/
def State.withSyncWord (s : State) (w : Word) : State := { s with block := s.block.withSyncWord w }

/-- A command that succeeds leaves the other word where the block it writes does. -/
theorem succeed_withSyncWord (s : State) (b : Block) (d w : Word) :
    (s.withSyncWord w).succeed (b.withSyncWord w) d = (s.succeed b d).withSyncWord w := rfl

/-- DropSync neither reads nor writes the sync word (R85). -/
theorem dropSync_withSyncWord (b : Block) (w : Word) : (b.withSyncWord w).dropSync = b.dropSync.withSyncWord w := by
  by_cases h : b.syncLength = 0#6
  · rw [dropSync_of_zero b h]
    exact dropSync_of_zero _ h
  · rw [dropSync_of_pos b h]
    exact dropSync_of_pos _ h

/-- Making room neither reads nor writes the sync word (41_bit_ingest.md R93, R94). -/
theorem makeRoom_withSyncWord (cfg : Config) (b : Block) (w : Word) :
    (b.withSyncWord w).makeRoom cfg = (b.makeRoom cfg).map (·.withSyncWord w) := by
  rcases makeRoom_cases cfg b with ⟨hwrite, h⟩ | ⟨hwrite, hread, h⟩ | ⟨hwrite, hread, h⟩
  · rw [h]
    exact if_neg hwrite
  · rw [h]
    exact (if_pos hwrite).trans (if_pos hread)
  · rw [h]
    exact (if_pos hwrite).trans (if_neg hread)

/-- Pack neither reads nor writes the sync word (41_bit_ingest.md R90 to R92). -/
theorem pack_withSyncWord (cfg : Config) (b : Block) (bit : Bool) (w : Word) :
    (b.withSyncWord w).pack cfg bit = (b.pack cfg bit).withSyncWord w := pack_syncWord cfg b bit w

section Packing
variable (bit : Bool) {s : State} (ha : s.block.acquired = true)
include ha

/-- While packing with room made, INGEST packs its bit (41_bit_ingest.md R90). -/
theorem execIngest_of_room {b : Block} (hroom : s.block.makeRoom s.cfg = some b) :
    execIngest bit s = .next (s.succeed (b.pack s.cfg bit) 0#32) := by
  rw [execIngest, if_pos ha, hroom]

/-- While packing without room, INGEST overflows (41_bit_ingest.md R93). -/
theorem execIngest_of_noRoom (hroom : s.block.makeRoom s.cfg = none) :
    execIngest bit s = .next (s.fail .overflow) := by
  rw [execIngest, if_pos ha, hroom]

/-- While the block packs, INGEST neither reads nor writes the sync word (41_bit_ingest.md R87). -/
theorem execIngest_withSyncWord (w : Word) :
    ∃ t, execIngest bit s = .next t ∧ execIngest bit (s.withSyncWord w) = .next (t.withSyncWord w) := by
  have hroomw := makeRoom_withSyncWord s.cfg s.block w
  cases hroom : s.block.makeRoom s.cfg with
  | none =>
    rw [hroom] at hroomw
    exact ⟨_, execIngest_of_noRoom bit ha hroom, execIngest_of_noRoom (s := s.withSyncWord w) bit ha hroomw⟩
  | some b =>
    rw [hroom] at hroomw
    refine ⟨_, execIngest_of_room bit ha hroom, (execIngest_of_room (s := s.withSyncWord w) bit ha hroomw).trans ?_⟩
    rw [← succeed_withSyncWord, ← pack_withSyncWord]
    rfl

end Packing

/-- A command of a packing block does the same with another sync word stored, but for the sync word it leaves
(R81). -/
theorem exec_withSyncWord (i : Instr) {s : State} (w : Word) (ha : s.block.acquired = true) :
    ∃ t w', exec i s = .next t ∧ exec i (s.withSyncWord w) = .next (t.withSyncWord w') := by
  cases i with
  | cfgsync value length =>
    rcases lt_or_ge 32 length with hgt | hle
    · exact ⟨_, w, exec_cfgsync_of_gt s value hgt, exec_cfgsync_of_gt _ value hgt⟩
    · exact ⟨_, value, exec_cfgsync_of_le s value hle, exec_cfgsync_of_le _ value hle⟩
  | dropsync =>
    refine ⟨_, w, exec_dropsync s, (exec_dropsync (s.withSyncWord w)).trans ?_⟩
    rw [← succeed_withSyncWord, ← dropSync_withSyncWord]
    rfl
  | ingest bit =>
    obtain ⟨t, hs, hw⟩ := execIngest_withSyncWord bit ha w
    exact ⟨t, w, hs, hw⟩
  | avail => exact ⟨_, w, rfl, rfl⟩
  | consume drop =>
    by_cases h : s.block.readCursor = s.block.writeCursor
    · exact ⟨_, w, if_pos h, if_pos h⟩
    · refine ⟨_, w, execConsume_of_ne drop s h, (execConsume_of_ne drop (s.withSyncWord w) h).trans ?_⟩
      cases drop with
      | false => rfl
      | true =>
        rw [if_pos rfl, if_pos rfl, ← succeed_withSyncWord, ← dropSync_withSyncWord]
        rfl
  | randmax max =>
    cases hr : s.cfg.hasRng with
    | false => exact ⟨_, w, execRandmax_of_noRng s max hr, execRandmax_of_noRng _ max hr⟩
    | true => exact ⟨_, w, execRandmax_of_rng s max hr, execRandmax_of_rng _ max hr⟩
  | randrange min max =>
    cases hr : s.cfg.hasRng with
    | false => exact ⟨_, w, execRandrange_of_noRng s min max hr, execRandrange_of_noRng _ min max hr⟩
    | true =>
      rcases le_or_gt max min with hle | hlt
      · exact ⟨_, w, execRandrange_of_le s min max hr hle, execRandrange_of_le _ min max hr hle⟩
      · exact ⟨_, w, execRandrange_of_lt s min max hr hlt, execRandrange_of_lt _ min max hr hlt⟩
  | randbyte =>
    cases hr : s.cfg.hasRng with
    | false => exact ⟨_, w, execRandbyte_of_noRng s hr, execRandbyte_of_noRng _ hr⟩
    | true => exact ⟨_, w, execRandbyte_of_rng s hr, execRandbyte_of_rng _ hr⟩

/-! ## The words of the two commands -/

/-- The word `01 value length` (30_encoding.md R68, R69). -/
theorem decode_cfgsync_fields (value : Word) {length : Nat} (h : length < 2 ^ 32) :
    decode (packFields 0x01#8 value (BitVec.ofNat 32 length)) = .command (.cfgsync value length) := by
  rw [decode_cfgsync (opField_packFields ..), aField_packFields, bField_packFields, BitVec.toNat_ofNat,
    Nat.mod_eq_of_lt h]

/-- Settles O15: an equation for each side of length 32, sent twice, and `exec_withSyncWord`. -/
theorem cfgsyncResult : Obligations.CfgsyncResult := by
  intro s value length hlt
  refine ⟨decode_cfgsync_fields value hlt, exec_cfgsync_of_gt s value, fun hle => ?_,
    fun t => exec_cfgsync_again, fun _ ha i t ht => ?_⟩
  · rw [exec_cfgsync_of_le s value hle, configure_eq]
    rfl
  · obtain ⟨t', w', hs, hw⟩ := exec_withSyncWord i value ha
    cases hs.symm.trans ht
    exact ⟨_, hw, rfl⟩

/-- Settles O16: DROPSYNC is `dropSync` on the block, by whether `syncLength` is 0. -/
theorem dropsyncResult : Obligations.DropsyncResult := by
  intro s a b
  refine ⟨decode_dropsync (opField_packFields _ a b), fun hzero => ?_, fun hpos => ?_, fun t => exec_dropsync_again⟩
  · rw [exec_dropsync, dropSync_of_zero _ ((syncLength_zero _).mpr hzero)]
    rfl
  · rw [exec_dropsync, dropSync_of_pos _ fun h => hpos.ne' ((syncLength_zero _).mp h)]
    rfl

end Sys2Proof.Machine

/-! INGEST while seeking (41_bit_ingest.md R88, R89): the window and the one comparison, and which commands leave the
search going. -/

namespace Sys2Proof.Machine

/-- `ShiftIn` with the new bit as a word of its own (00_scope.md R12). -/
theorem shiftIn_eq_or_ite (sr : Word) (bit : Bool) : shiftIn sr bit = (sr <<< 1) ||| (if bit then 1#32 else 0#32) := by
  cases bit <;> rfl

section Seek
variable {b : Block} {bit : Bool}

/-- A new window that matches acquires: the flag set and the three cursors at 0 (R88, R89). -/
theorem seek_of_match (h : shiftIn b.shiftRegister bit &&& b.syncMask = b.syncWord) :
    b.seek bit = { b with
      shiftRegister := shiftIn b.shiftRegister bit
      acquired := true
      writeCursor := 0
      readCursor := 0
      bitCursor := 0 } := by
  rcases seek_cases b bit with ⟨-, hseek⟩ | ⟨hne, -⟩
  · exact hseek
  · exact absurd h hne

/-- A new window that does not match is all that the bit changes (R88). -/
theorem seek_of_noMatch (h : shiftIn b.shiftRegister bit &&& b.syncMask ≠ b.syncWord) :
    b.seek bit = { b with shiftRegister := shiftIn b.shiftRegister bit } := by
  rcases seek_cases b bit with ⟨heq, -⟩ | ⟨-, hseek⟩
  · exact absurd heq h
  · exact hseek

end Seek

/-- While seeking, INGEST always answers `OK` with data 0 (R87, R88). -/
theorem exec_ingest_of_seeking (bit : Bool) {s : State} (ha : s.block.acquired = false) :
    exec (.ingest bit) s = .next (s.succeed (s.block.seek bit) 0#32) := if_neg (ne_true_of_eq_false ha)

/-! ## The commands that leave the search going -/

/-- DROPSYNC never sets the flag (40_sync_control.md R85). -/
theorem dropSync_acquired_of_seeking {b : Block} (ha : b.acquired = false) : b.dropSync.acquired = false := by
  by_cases h : b.syncLength = 0#6
  · rw [dropSync_of_zero b h, ha]
  · rw [dropSync_of_pos b h]

section Rng
variable {s t : State}

/-- RANDMAX writes no field of the block (43_rng.md R112). -/
theorem exec_randmax_block {max : Int} (h : exec (.randmax max) s = .next t) : t.block = s.block := by
  cases hr : s.cfg.hasRng with
  | false => cases (execRandmax_of_noRng s max hr).symm.trans h; rfl
  | true => cases (execRandmax_of_rng s max hr).symm.trans h; rfl

/-- RANDRANGE writes no field of the block (43_rng.md R112). -/
theorem exec_randrange_block {min max : Int} (h : exec (.randrange min max) s = .next t) : t.block = s.block := by
  cases hr : s.cfg.hasRng with
  | false => cases (execRandrange_of_noRng s min max hr).symm.trans h; rfl
  | true =>
    rcases le_or_gt max min with hle | hlt
    · cases (execRandrange_of_le s min max hr hle).symm.trans h; rfl
    · cases (execRandrange_of_lt s min max hr hlt).symm.trans h; rfl

/-- RANDBYTE writes no field of the block (43_rng.md R112). -/
theorem exec_randbyte_block (h : exec .randbyte s = .next t) : t.block = s.block := by
  cases hr : s.cfg.hasRng with
  | false => cases (execRandbyte_of_noRng s hr).symm.trans h; rfl
  | true => cases (execRandbyte_of_rng s hr).symm.trans h; rfl

end Rng

/-- Only INGEST and a CFGSYNC with length 0 can end the search: every other command at most clears the flag
(10_state.md R40). -/
theorem exec_keeps_seeking {i : Instr} {s t : State} (ha : s.block.acquired = false)
    (hingest : ∀ bit, i ≠ .ingest bit) (hcfgsync : ∀ value, i ≠ .cfgsync value 0) (h : exec i s = .next t) :
    t.block.acquired = false := by
  cases i with
  | cfgsync value length =>
    rcases lt_or_ge 32 length with hgt | hle
    · cases (exec_cfgsync_of_gt s value hgt).symm.trans h
      exact ha
    · cases (exec_cfgsync_of_le s value hle).symm.trans h
      have hpos : length ≠ 0 := fun hzero => hcfgsync value (hzero ▸ rfl)
      rw [succeed_block, configure_acquired, acquiredAfterConfigure_pos _ _ hpos, ha]
  | dropsync =>
    cases (exec_dropsync s).symm.trans h
    exact dropSync_acquired_of_seeking ha
  | ingest bit => exact absurd rfl (hingest bit)
  | avail => cases h; exact ha
  | consume drop =>
    rcases execConsume_next h with ⟨-, rfl⟩ | ⟨-, rfl⟩
    · exact ha
    · cases drop with
      | false => exact ha
      | true => exact dropSync_acquired_of_seeking ha
  | randmax max => rw [exec_randmax_block h, ha]
  | randrange min max => rw [exec_randrange_block h, ha]
  | randbyte => rw [exec_randbyte_block h, ha]

/-- Settles O19: INGEST is `seek` on the block, by whether the new window matches, and `exec_keeps_seeking`. -/
theorem ingestSeekingResult : Obligations.IngestSeekingResult := by
  intro s bit sr ha hsr
  obtain rfl : sr = shiftIn s.block.shiftRegister bit := hsr.trans (shiftIn_eq_or_ite ..).symm
  refine ⟨fun hmatch => ?_, fun hne => ?_, fun i t => exec_keeps_seeking ha⟩
  · rw [exec_ingest_of_seeking bit ha, seek_of_match hmatch]
    rfl
  · rw [exec_ingest_of_seeking bit ha, seek_of_noMatch hne]
    rfl

end Sys2Proof.Machine

/-! AVAIL and CONSUME (42_consumer.md R98 to R101): the count as a function of the two cursors, and the reading of
one byte with the DropSync that may follow it. -/

namespace Sys2Proof.Machine

/-! ## The count of unread bytes -/

/-- AVAIL answers the count and writes no field of the block (R98). -/
theorem exec_avail_of_available {s : State} {d : Word} (h : s.block.available = d) :
    exec .avail s = .next { s with rsp := some ⟨.ok, d⟩ } := by
  subst h
  rfl

/-- Within a legal `CAPACITY` the count fits the 32 bits of the response (R98). -/
theorem available_toNat {cfg : Config} {b : Block} (hcfg : cfg.wf = true) (hwrite : b.writeCursor ≤ cfg.capacity) :
    b.available.toNat = b.writeCursor - b.readCursor := by
  have hcap : cfg.capacity ≤ 4294967295 := of_decide_eq_true (Bool.and_eq_true_iff.mp hcfg).2
  rw [Block.available, BitVec.toNat_ofNat]
  exact Nat.mod_eq_of_lt (by omega)

/-- Nothing is unread when the cursors meet (R98). -/
theorem available_of_drained {b : Block} (h : b.readCursor = b.writeCursor) : b.available = 0#32 := by
  rw [Block.available, h, Nat.sub_self]

/-- DropSync writes neither cursor, so the count stands (40_sync_control.md R86). -/
theorem available_dropSync (b : Block) : b.dropSync.available = b.available := by
  rw [Block.available, dropSync_writeCursor, dropSync_readCursor]
  rfl

/-- A bit that acquires leaves both cursors at 0 (41_bit_ingest.md R89). -/
theorem seek_drained {b : Block} {bit : Bool} (ha : b.acquired = false) (hacq : (b.seek bit).acquired = true) :
    (b.seek bit).readCursor = (b.seek bit).writeCursor := by
  rcases seek_cases b bit with ⟨-, hseek⟩ | ⟨-, hseek⟩
  · rw [hseek]
  · rw [hseek] at hacq
    exact absurd (ha.symm.trans hacq) Bool.false_ne_true

/-- A full and drained store is rewound (41_bit_ingest.md R94). -/
theorem makeRoom_of_drained {cfg : Config} {b : Block} (hfull : b.writeCursor = cfg.capacity)
    (h : b.readCursor = b.writeCursor) : b.makeRoom cfg = some b.rewind := (if_pos hfull).trans (if_pos h)

/-- A bit that completes no byte writes neither byte cursor, so a drained store stays drained (41_bit_ingest.md
R90). -/
theorem pack_drained (cfg : Config) {b : Block} (bit : Bool) (h7 : b.bitCursor ≠ 7)
    (h : b.readCursor = b.writeCursor) : (b.pack cfg bit).readCursor = (b.pack cfg bit).writeCursor := by
  have hpack := pack_result cfg b bit
  rw [hpack.readCursor, hpack.writeCursor, if_neg h7, h]

/-- Settles O23: the count depends on the cursors alone, and meeting cursors count 0. -/
theorem availResult : Obligations.AvailResult := by
  intro s a b
  refine ⟨decode_avail (opField_packFields _ a b), _, exec_avail_of_available rfl, fun hinv => ?_, fun t hdrop => ?_,
    fun bit t ha hingest hacq => ?_, fun bit t hinv ha hfull hdrained hingest => ?_⟩
  · obtain ⟨hcfg, hblock⟩ := hinv
    have hread := hblock.readLeWrite
    have hwrite := hblock.writeLeCapacity
    rw [available_toNat hcfg hwrite]
    omega
  · cases (exec_dropsync s).symm.trans hdrop
    exact exec_avail_of_available (available_dropSync s.block)
  · cases (exec_ingest_of_seeking bit ha).symm.trans hingest
    exact exec_avail_of_available (available_of_drained (seek_drained ha hacq))
  · cases (execIngest_of_room bit ha (makeRoom_of_drained hfull hdrained)).symm.trans hingest
    have h7 : s.block.rewind.bitCursor ≠ 7 := by
      rw [rewind_bitCursor, hinv.blockInv.fullAligned hfull]
      decide
    exact exec_avail_of_available (available_of_drained (pack_drained s.cfg bit h7 rfl))

/-! ## Reading a byte -/

/-- CONSUME with nothing unread fails and writes no field of the block, whatever the drop operand (R100). -/
theorem exec_consume_of_drained (drop : Bool) {s : State} (h : s.block.readCursor = s.block.writeCursor) :
    exec (.consume drop) s = .next (s.fail .bufferEmpty) := if_pos h

/-- A DropSync asked for clears its two fields outside pass-through mode and does nothing in it (40_sync_control.md
R85). -/
theorem dropSync_if (drop : Bool) (b : Block) :
    (if drop then b.dropSync else b) =
      if drop = true ∧ 0 < b.syncLength.toNat then { b with acquired := false, shiftRegister := 0#32 } else b := by
  rcases Nat.eq_zero_or_pos b.syncLength.toNat with hzero | hpos
  · rw [dropSync_of_zero b ((syncLength_zero b).mpr hzero), ite_self, if_neg fun h => h.2.ne' hzero]
  · rw [dropSync_of_pos b fun h => hpos.ne' ((syncLength_zero b).mp h)]
    simp only [hpos, and_true]

/-- Settles O24: CONSUME by whether the cursors meet, and the block it leaves by `dropSync_if`. -/
theorem consumeResult : Obligations.ConsumeResult := by
  intro s a b drop
  refine ⟨?_, exec_consume_of_drained drop, fun hunread hwrite => ?_⟩
  · have hdecode := decode_consume (opField_packFields 0x05#8 a b)
    rwa [bField_packFields] at hdecode
  · have hread : s.block.readCursor < s.cfg.capacity := hunread.trans_le hwrite
    refine (execConsume_of_lt drop s hunread.ne hread).trans ?_
    rw [dropSync_if]
    rfl

end Sys2Proof.Machine

/-! The generator beside the synchronizer (43_rng.md R110, R112): what the stub entropy source answers, and that the
RNG commands act without the block as the other five act without the entropy source. -/

namespace Sys2Proof.Machine

/-! ## The stub entropy source -/

/-- Nothing is left over of 0, whatever the divisor (00_scope.md R19). -/
@[simp] theorem truncRem_zero_left (m : Int) : truncRem 0 m = 0 := by
  rw [truncRem_eq_tmod, Int.zero_tmod]

/-- Wrapping does not change the 32 bits a value is sent as (00_scope.md R17). -/
@[simp] theorem u32_wrap32 (i : Int) : u32 (wrap32 i) = u32 i := u32_s32 (u32 i)

/-- The stub makes RandMax answer 0 for every operand (43_rng.md R110). -/
theorem randMax_fst_stub {cfg : Config} (src : Source) (max : Int) (hstub : cfg.entropyMode = .stubZero) :
    (src.randMax cfg max).1 = 0 := by
  by_cases hmax : max = 0
  · rw [hmax, randMax_zero]
  · have hraw : guardedAbs (s32 0#32) = 0 := rfl
    rw [randMax_of_ne cfg src max hmax, drawWord_stub cfg src hstub, hraw, truncRem_zero_left]

section Stub
variable {s : State} (hrng : s.cfg.hasRng = true) (hstub : s.cfg.entropyMode = .stubZero)
include hrng hstub

/-- With the stub RANDMAX answers `OK` with 0 (43_rng.md R110). -/
theorem exec_randmax_stub (max : Int) : ∃ t, exec (.randmax max) s = .next t ∧ t.rsp = some ⟨.ok, 0#32⟩ := by
  refine ⟨_, execRandmax_of_rng s max hrng, ?_⟩
  rw [succeedDrawn_rsp, randMax_fst_stub s.source max hstub]
  rfl

/-- With the stub RANDRANGE answers `OK` with its minimum, on either side of its comparison (43_rng.md R110). -/
theorem exec_randrange_stub (min max : Int) :
    ∃ t, exec (.randrange min max) s = .next t ∧ t.rsp = some ⟨.ok, u32 min⟩ := by
  rcases le_or_gt max min with hle | hlt
  · exact ⟨_, execRandrange_of_le s min max hrng hle, succeedDrawn_rsp ..⟩
  · refine ⟨_, execRandrange_of_lt s min max hrng hlt, ?_⟩
    rw [succeedDrawn_rsp, randMax_fst_stub s.source _ hstub, add_zero, u32_wrap32]

/-- With the stub RANDBYTE answers `OK` with 0 (43_rng.md R110). -/
theorem exec_randbyte_stub : ∃ t, exec .randbyte s = .next t ∧ t.rsp = some ⟨.ok, 0#32⟩ := by
  refine ⟨_, execRandbyte_of_rng s hrng, ?_⟩
  rw [succeedDrawn_rsp, draw_stub s.cfg s.source hstub]
  rfl

end Stub

/-- Settles O31: the draws are `draw_stub` and `drawWord_stub`, and each command answers from RandMax or a draw of
the stub. -/
theorem stubEntropyIsDegenerate : Obligations.StubEntropyIsDegenerate := by
  intro s hrng hstub
  exact ⟨⟨_, draw_stub s.cfg s.source hstub⟩, ⟨_, drawWord_stub s.cfg s.source hstub⟩,
    fun max _ _ => exec_randmax_stub hrng hstub max,
    fun min max _ _ _ _ => exec_randrange_stub hrng hstub min max, exec_randbyte_stub hrng hstub⟩

/-! ## Commands that act without the block, and commands that act without the entropy source -/

/-- The state with another block and everything else as it was. -/
def State.withBlock (s : State) (b : Block) : State := { s with block := b }

/-- The state with another entropy source and everything else as it was. -/
def State.withSource (s : State) (src : Source) : State := { s with source := src }

/-- From `s` the command goes on, and with any other block in its place it goes on to the same next state with that
other block: it neither reads nor writes the block. -/
def ActsWithoutBlock (i : Instr) (s : State) : Prop :=
  ∃ t, exec i s = .next t ∧ ∀ b, exec i (s.withBlock b) = .next (t.withBlock b)

/-- From `s` the command goes on, and with any other entropy source in its place it goes on to the same next state
with that other source: it neither reads nor draws from the source. -/
def ActsWithoutSource (i : Instr) (s : State) : Prop :=
  ∃ t, exec i s = .next t ∧ ∀ src, exec i (s.withSource src) = .next (t.withSource src)

section Next
variable {i : Instr} {s t : State}

/-- The state's own block put in its place shows that the command leaves the block as it was (43_rng.md R112). -/
theorem ActsWithoutBlock.next (hacts : ActsWithoutBlock i s) (h : exec i s = .next t) :
    t.block = s.block ∧ ∀ b, exec i (s.withBlock b) = .next (t.withBlock b) := by
  obtain ⟨u, hu, hall⟩ := hacts
  cases hu.symm.trans h
  have hself : t = t.withBlock s.block := Host.Outcome.next.inj (h.symm.trans (hall s.block))
  refine ⟨?_, hall⟩
  rw [hself]
  rfl

/-- The state's own source put in its place shows that the command leaves the source as it was (43_rng.md R112). -/
theorem ActsWithoutSource.next (hacts : ActsWithoutSource i s) (h : exec i s = .next t) :
    t.source = s.source ∧ ∀ src, exec i (s.withSource src) = .next (t.withSource src) := by
  obtain ⟨u, hu, hall⟩ := hacts
  cases hu.symm.trans h
  have hself : t = t.withSource s.source := Host.Outcome.next.inj (h.symm.trans (hall s.source))
  refine ⟨?_, hall⟩
  rw [hself]
  rfl

end Next

section Commands
variable (s : State)

/-- RANDMAX works on its operand and the entropy source (43_rng.md R103). -/
theorem randmax_actsWithoutBlock (max : Int) : ActsWithoutBlock (.randmax max) s := by
  cases hrng : s.cfg.hasRng with
  | false => exact ⟨_, execRandmax_of_noRng s max hrng, fun _ => execRandmax_of_noRng _ max hrng⟩
  | true => exact ⟨_, execRandmax_of_rng s max hrng, fun _ => execRandmax_of_rng _ max hrng⟩

/-- RANDRANGE works on its operands and the entropy source (43_rng.md R106). -/
theorem randrange_actsWithoutBlock (min max : Int) : ActsWithoutBlock (.randrange min max) s := by
  cases hrng : s.cfg.hasRng with
  | false => exact ⟨_, execRandrange_of_noRng s min max hrng, fun _ => execRandrange_of_noRng _ min max hrng⟩
  | true =>
    rcases le_or_gt max min with hle | hlt
    · exact ⟨_, execRandrange_of_le s min max hrng hle, fun _ => execRandrange_of_le _ min max hrng hle⟩
    · exact ⟨_, execRandrange_of_lt s min max hrng hlt, fun _ => execRandrange_of_lt _ min max hrng hlt⟩

/-- RANDBYTE works on the entropy source (43_rng.md R108). -/
theorem randbyte_actsWithoutBlock : ActsWithoutBlock .randbyte s := by
  cases hrng : s.cfg.hasRng with
  | false => exact ⟨_, execRandbyte_of_noRng s hrng, fun _ => execRandbyte_of_noRng _ hrng⟩
  | true => exact ⟨_, execRandbyte_of_rng s hrng, fun _ => execRandbyte_of_rng _ hrng⟩

/-- CFGSYNC works on its operands and the block (40_sync_control.md R81, R82). -/
theorem cfgsync_actsWithoutSource (value : Word) (length : Nat) : ActsWithoutSource (.cfgsync value length) s := by
  rcases lt_or_ge 32 length with hgt | hle
  · exact ⟨_, exec_cfgsync_of_gt s value hgt, fun _ => exec_cfgsync_of_gt _ value hgt⟩
  · exact ⟨_, exec_cfgsync_of_le s value hle, fun _ => exec_cfgsync_of_le _ value hle⟩

/-- DROPSYNC works on the block (40_sync_control.md R85). -/
theorem dropsync_actsWithoutSource : ActsWithoutSource .dropsync s :=
  ⟨_, exec_dropsync s, fun _ => exec_dropsync _⟩

/-- INGEST works on its bit and the block, seeking or packing (41_bit_ingest.md R87). -/
theorem ingest_actsWithoutSource (bit : Bool) : ActsWithoutSource (.ingest bit) s := by
  cases ha : s.block.acquired with
  | false =>
    exact ⟨_, exec_ingest_of_seeking bit ha, fun src => exec_ingest_of_seeking (s := s.withSource src) bit ha⟩
  | true =>
    cases hroom : s.block.makeRoom s.cfg with
    | none =>
      exact ⟨_, execIngest_of_noRoom bit ha hroom,
        fun src => execIngest_of_noRoom (s := s.withSource src) bit ha hroom⟩
    | some b =>
      exact ⟨_, execIngest_of_room bit ha hroom, fun src => execIngest_of_room (s := s.withSource src) bit ha hroom⟩

/-- AVAIL works on the block (42_consumer.md R98). -/
theorem avail_actsWithoutSource : ActsWithoutSource .avail s :=
  ⟨_, exec_avail_of_available rfl, fun src => exec_avail_of_available (s := s.withSource src) rfl⟩

/-- CONSUME works on its drop operand and the block (42_consumer.md R99, R100). -/
theorem consume_actsWithoutSource (drop : Bool) : ActsWithoutSource (.consume drop) s := by
  by_cases h : s.block.readCursor = s.block.writeCursor
  · exact ⟨_, exec_consume_of_drained drop h, fun src => exec_consume_of_drained (s := s.withSource src) drop h⟩
  · exact ⟨_, execConsume_of_ne drop s h, fun src => execConsume_of_ne drop (s.withSource src) h⟩

end Commands

/-- Settles O33: the three RNG commands act without the block, the other five without the entropy source. -/
theorem generatorAndSynchronizerAreIndependent : Obligations.GeneratorAndSynchronizerAreIndependent := by
  intro s t i h
  cases i with
  | cfgsync value length => exact (cfgsync_actsWithoutSource s value length).next h
  | dropsync => exact (dropsync_actsWithoutSource s).next h
  | ingest bit => exact (ingest_actsWithoutSource s bit).next h
  | avail => exact (avail_actsWithoutSource s).next h
  | consume drop => exact (consume_actsWithoutSource s drop).next h
  | randmax max => exact (randmax_actsWithoutBlock s max).next h
  | randrange min max => exact (randrange_actsWithoutBlock s min max).next h
  | randbyte => exact (randbyte_actsWithoutBlock s).next h

end Sys2Proof.Machine

/-! The failure statuses and their causes (60_exceptions.md R114 to R117): a command word is answered with a status
other than `OK` exactly when the state before it holds the one cause of that status, and has then changed nothing. -/

namespace Sys2Proof.Machine

/-- What makes a decoded word fail with a status, in the configuration and the block it finds (60_exceptions.md R114
to R117). -/
inductive FailureCause (cfg : Config) (b : Block) : Decoded → Status → Prop
  | overlongSyncWord (value : Word) {length : Nat} : 32 < length →
      FailureCause cfg b (.command (.cfgsync value length)) .invalidSyncWord
  | nothingUnread (drop : Bool) : b.readCursor = b.writeCursor →
      FailureCause cfg b (.command (.consume drop)) .bufferEmpty
  | noRoom (bit : Bool) : b.acquired = true → b.writeCursor = cfg.capacity → b.readCursor ≠ b.writeCursor →
      FailureCause cfg b (.command (.ingest bit)) .overflow
  | randmaxWithoutRng (max : Int) : cfg.hasRng = false → FailureCause cfg b (.command (.randmax max)) .unsupported
  | randrangeWithoutRng (min max : Int) : cfg.hasRng = false →
      FailureCause cfg b (.command (.randrange min max)) .unsupported
  | randbyteWithoutRng : cfg.hasRng = false → FailureCause cfg b (.command .randbyte) .unsupported
  | reservedOpcode (op : BitVec 8) : FailureCause cfg b (.reserved op) .unsupported

section Causes
variable {cfg : Config} {b : Block} {d : Decoded}

/-- `INVALID_SYNC_WORD` is CFGSYNC's alone (R114). -/
theorem failureCause_invalidSyncWord_iff :
    FailureCause cfg b d .invalidSyncWord ↔ ∃ value length, d = .command (.cfgsync value length) ∧ 32 < length := by
  constructor
  · rintro ⟨value, hgt⟩
    exact ⟨value, _, rfl, hgt⟩
  · rintro ⟨value, length, rfl, hgt⟩
    exact .overlongSyncWord value hgt

/-- `BUFFER_EMPTY` is CONSUME's alone (R115). -/
theorem failureCause_bufferEmpty_iff :
    FailureCause cfg b d .bufferEmpty ↔ ∃ drop, d = .command (.consume drop) ∧ b.readCursor = b.writeCursor := by
  constructor
  · rintro ⟨⟩
    exact ⟨_, rfl, ‹_›⟩
  · rintro ⟨drop, rfl, hdrained⟩
    exact .nothingUnread drop hdrained

end Causes

/-- A command that does not answer `OK` had the cause of its status. -/
theorem exec_failure {i : Instr} {s t : State} {r : Response} (h : exec i s = .next t) (hrsp : t.rsp = some r) :
    r.st = .ok ∨ FailureCause s.cfg s.block (.command i) r.st := by
  obtain ⟨r', hrsp', hstatus⟩ := exec_status i s t h
  obtain rfl : r' = r := Option.some.inj (hrsp'.symm.trans hrsp)
  refine hstatus.imp_right fun ⟨_, hcause⟩ => ?_
  rcases hcause with ⟨hst, value, length, rfl, hgt⟩ | ⟨hst, ⟨drop, rfl⟩, hdrained⟩ |
    ⟨hst, ⟨bit, rfl⟩, ha, hfull, hunread⟩ | ⟨hst, hrng, ⟨max, rfl⟩ | ⟨min, max, rfl⟩ | rfl⟩ <;> rw [hst]
  · exact .overlongSyncWord value hgt
  · exact .nothingUnread drop hdrained
  · exact .noRoom bit ha hfull hunread
  · exact .randmaxWithoutRng max hrng
  · exact .randrangeWithoutRng min max hrng
  · exact .randbyteWithoutRng hrng

/-- A command with a cause to fail answers its status and writes no field of the block (R120). -/
theorem exec_of_failureCause {i : Instr} {s : State} {st : Status}
    (hcause : FailureCause s.cfg s.block (.command i) st) : exec i s = .next (s.fail st) := by
  cases hcause with
  | overlongSyncWord value hgt => exact exec_cfgsync_of_gt s value hgt
  | nothingUnread drop hdrained => exact exec_consume_of_drained drop hdrained
  | noRoom bit ha hfull hunread => exact execIngest_of_noRoom bit ha ((if_pos hfull).trans (if_neg hunread))
  | randmaxWithoutRng max hrng => exact execRandmax_of_noRng s max hrng
  | randrangeWithoutRng min max hrng => exact execRandrange_of_noRng s min max hrng
  | randbyteWithoutRng hrng => exact execRandbyte_of_noRng s hrng

section Step
variable {s t : State} {a : Agent} {w : CmdWord} {rest : List Event} {r : Response} {st : Status}
variable (hin : s.inputs = .command a w :: rest)
include hin

/-- A command word with a cause to fail answers its status and writes no field of the block (R120). -/
theorem step_of_failureCause (hcause : FailureCause s.cfg s.block (decode w) st) :
    step s = .next ((s.accept a rest).fail st) := by
  cases hd : decode w with
  | command i =>
    rw [hd] at hcause
    rw [step_command s a w rest i hin hd]
    exact exec_of_failureCause hcause
  | reserved op =>
    rw [hd] at hcause
    cases hcause
    exact step_reserved s a w rest op hin hd

variable (hstep : step s = .next t) (hrsp : t.rsp = some r)
include hstep hrsp

/-- A command word not answered with `OK` had the cause of its status. -/
theorem step_failure : r.st = .ok ∨ FailureCause s.cfg s.block (decode w) r.st := by
  rcases step_command_cases s t a w rest hin hstep with ⟨op, hd, rfl⟩ | ⟨i, hd, hexec⟩
  · cases hrsp
    rw [hd]
    exact .inr (.reservedOpcode op)
  · rw [hd]
    exact exec_failure (s := s.accept a rest) hexec hrsp

/-- The cause of a failure fixes the whole next state and the response. -/
theorem step_eq_fail (hcause : FailureCause s.cfg s.block (decode w) st) :
    t = (s.accept a rest).fail st ∧ r = ⟨st, 0#32⟩ := by
  cases (step_of_failureCause hin hcause).symm.trans hstep
  exact ⟨rfl, (Option.some.inj hrsp).symm⟩

/-- Every status but `OK` is answered exactly on its cause (R114 to R117). -/
theorem step_status_iff (hst : st ≠ .ok) : r.st = st ↔ FailureCause s.cfg s.block (decode w) st := by
  constructor
  · rintro rfl
    exact (step_failure hin hstep hrsp).resolve_left hst
  · intro hcause
    obtain ⟨-, rfl⟩ := step_eq_fail hin hstep hrsp hcause
    rfl

/-- A command word not answered with `OK` changed neither block nor entropy source and carries data 0 (R120). -/
theorem step_failed_unchanged (hst : r.st ≠ .ok) : t.block = s.block ∧ t.source = s.source ∧ r = ⟨r.st, 0#32⟩ := by
  have hcause := (step_status_iff hin hstep hrsp hst).mp rfl
  obtain ⟨rfl, hr⟩ := step_eq_fail hin hstep hrsp hcause
  exact ⟨rfl, rfl, hr⟩

end Step

/-- Settles O34: the causes by `step_status_iff`, what a failure leaves alone by `step_failed_unchanged`. -/
theorem invalidSyncWordAndBufferEmptyHaveOneCauseEach :
    Obligations.InvalidSyncWordAndBufferEmptyHaveOneCauseEach := by
  intro s t a w rest r hin hstep hrsp
  have hsame := step_failed_unchanged hin hstep hrsp
  have hcause (st : Status) := step_status_iff (st := st) hin hstep hrsp
  refine ⟨(hcause .invalidSyncWord nofun).trans failureCause_invalidSyncWord_iff,
    (hcause .bufferEmpty nofun).trans failureCause_bufferEmpty_iff, fun hst => ?_, fun hst => ?_, fun hst => ?_⟩
  · obtain ⟨hblock, hsource, hr⟩ := hsame (by rcases hst with hst | hst <;> simp [hst])
    exact ⟨hblock, hsource, congrArg Response.d hr⟩
  · obtain ⟨-, -, hr⟩ := hsame (by simp [hst])
    rw [hr, hst]
    rfl
  · obtain ⟨-, -, hr⟩ := hsame (by simp [hst])
    rw [hr, hst]
    rfl

end Sys2Proof.Machine

/-! The encoding (30_encoding.md R64 to R77): decode and encode agree, the bits a command reads, the reserved opcodes,
the response word and FEED. -/

namespace Sys2Proof.Machine

/-- The `opField` of an encoding is the opcode of the command (30_encoding.md R68). -/
@[simp] theorem opField_encode (i : Instr) : opField (encode i) = i.opcode := opField_packFields ..

/-- Field `a` of an encoding (30_encoding.md R76). -/
@[simp] theorem aField_encode (i : Instr) : aField (encode i) = i.operandA := aField_packFields ..

/-- Field `b` of an encoding (30_encoding.md R76). -/
@[simp] theorem bField_encode (i : Instr) : bField (encode i) = i.operandB := bField_packFields ..

/-- A flag operand is read back from bit 0 (30_encoding.md R70). -/
@[simp] theorem getLsbD_zero_flag (bit : Bool) : ((BitVec.ofBool bit).setWidth 32).getLsbD 0 = bit := by
  cases bit <;> rfl

/-- Decode undoes encode on every well-formed command (30_encoding.md R75, R76). -/
theorem decode_encode {i : Instr} (hwf : i.wf = true) : decode (encode i) = .command i := by
  cases i with
  | cfgsync value length =>
    have hlt : length < 2 ^ 32 := of_decide_eq_true hwf
    exact decode_cfgsync_fields value hlt
  | dropsync => exact decode_dropsync (opField_encode _)
  | ingest bit => exact decode_ingest_encode bit
  | avail => exact decode_avail (opField_encode _)
  | consume drop => rw [decode_consume (opField_encode _), bField_encode, Instr.operandB, getLsbD_zero_flag]
  | randmax max => rw [decode_randmax (opField_encode _), bField_encode, Instr.operandB, s32_u32 max hwf]
  | randrange min max =>
    obtain ⟨hmin, hmax⟩ := Bool.and_eq_true_iff.mp hwf
    rw [decode_randrange (opField_encode _), aField_encode, bField_encode, Instr.operandA, Instr.operandB,
      s32_u32 min hmin, s32_u32 max hmax]
  | randbyte => exact decode_randbyte (opField_encode _)

/-- Settles O2: `decode_encode`, by the command's constructor. -/
theorem decodeOfEncodeIsTheCommand : Obligations.DecodeOfEncodeIsTheCommand := fun _ => decode_encode

/-! ## The bits a command reads -/

/-- A mask on a command word acts on its three fields (30_encoding.md R64). -/
theorem packFields_and (op op' : BitVec 8) (a a' b b' : Word) :
    packFields op a b &&& packFields op' a' b' = packFields (op &&& op') (a &&& a') (b &&& b') := by
  rw [packFields, packFields, packFields, BitVec.and_append, BitVec.and_append]

/-- A command is the word masked to the bits it reads when each of its fields is (30_encoding.md R76). -/
theorem encode_eq_and {w : CmdWord} {i : Instr} {maskA maskB : Word} (hop : opField w = i.opcode)
    (hused : i.usedBits = packFields 0xFF#8 maskA maskB) (ha : i.operandA = aField w &&& maskA)
    (hb : i.operandB = bField w &&& maskB) : encode i = w &&& i.usedBits := by
  have hop' : i.opcode = opField w &&& 0xFF#8 := by rw [hop]; exact BitVec.and_allOnes.symm
  rw [hused, ← packFields_fields w, packFields_and, ← hop', ← ha, ← hb]
  rfl

/-- The flag operand is field `b` masked to bit 0 (30_encoding.md R70). -/
theorem flag_eq_and_one (b : Word) : (BitVec.ofBool (b.getLsbD 0)).setWidth 32 = b &&& 1#32 := by
  ext k hk
  cases k <;> simp

/-- The opcode of the command a word decodes to stands in its high bits (30_encoding.md R68). -/
theorem opField_of_decode {w : CmdWord} {i : Instr} (hd : decode w = .command i) : opField w = i.opcode := by
  rcases decode_cases w with ⟨j, hj, hop⟩ | ⟨hreserved, -⟩
  · cases hj.symm.trans hd
    exact hop
  · cases hreserved.symm.trans hd

/-- A decoded command is well-formed and its encoding is the word without the ignored bits (30_encoding.md R74,
R76). -/
theorem encode_of_decode {w : CmdWord} {i : Instr} (hd : decode w = .command i) :
    i.wf = true ∧ encode i = w &&& i.usedBits := by
  have hop := opField_of_decode hd
  have hall (v : Word) : v = v &&& 0xFFFFFFFF#32 := BitVec.and_allOnes.symm
  cases i with
  | cfgsync value length =>
    cases (decode_cfgsync hop).symm.trans hd
    have hlength : BitVec.ofNat 32 (bField w).toNat = bField w := by simp
    exact ⟨decide_eq_true (bField w).isLt, encode_eq_and hop rfl (hall _) (hlength.trans (hall _))⟩
  | dropsync => exact ⟨rfl, encode_eq_and hop rfl BitVec.and_zero.symm BitVec.and_zero.symm⟩
  | ingest bit =>
    cases (decode_ingest hop).symm.trans hd
    exact ⟨rfl, encode_eq_and hop rfl BitVec.and_zero.symm (flag_eq_and_one _)⟩
  | avail => exact ⟨rfl, encode_eq_and hop rfl BitVec.and_zero.symm BitVec.and_zero.symm⟩
  | consume drop =>
    cases (decode_consume hop).symm.trans hd
    exact ⟨rfl, encode_eq_and hop rfl BitVec.and_zero.symm (flag_eq_and_one _)⟩
  | randmax max =>
    cases (decode_randmax hop).symm.trans hd
    exact ⟨inS32_s32 _, encode_eq_and hop rfl BitVec.and_zero.symm ((u32_s32 _).trans (hall _))⟩
  | randrange min max =>
    cases (decode_randrange hop).symm.trans hd
    exact ⟨Bool.and_eq_true_iff.mpr ⟨inS32_s32 _, inS32_s32 _⟩,
      encode_eq_and hop rfl ((u32_s32 _).trans (hall _)) ((u32_s32 _).trans (hall _))⟩
  | randbyte => exact ⟨rfl, encode_eq_and hop rfl BitVec.and_zero.symm BitVec.and_zero.symm⟩

/-- Settles O3: `encode_of_decode`, by the command's constructor. -/
theorem encodeRecoversEveryReadBit : Obligations.EncodeRecoversEveryReadBit := fun _ _ => encode_of_decode

/-- Which bits are read, by the opcode alone (30_encoding.md R69 to R71). -/
def usedBitsOf (op : BitVec 8) : CmdWord :=
  if op ∈ [0x01#8, 0x11#8] then 0xFFFFFFFFFFFFFFFFFF#72
  else if op = 0x10#8 then 0xFF00000000FFFFFFFF#72
  else if op ∈ [0x03#8, 0x05#8] then 0xFF0000000000000001#72
  else 0xFF0000000000000000#72

/-- `usedBits` is a function of the opcode. -/
theorem usedBits_eq (i : Instr) : i.usedBits = usedBitsOf i.opcode := by cases i <;> rfl

/-- Every command reads its opcode (30_encoding.md R74). -/
theorem opField_and_usedBits (w : CmdWord) (i : Instr) : opField (w &&& i.usedBits) = opField w := by
  have hused : opField i.usedBits = BitVec.allOnes 8 := by
    cases i <;> simp only [Instr.usedBits] <;> decide
  calc opField (w &&& i.usedBits) = opField w &&& opField i.usedBits := BitVec.extractLsb'_and
    _ = opField w := by rw [hused, BitVec.and_allOnes]

/-- The opcode of every command is one of the eight (30_encoding.md R68). -/
theorem opcode_mem_opcodes (i : Instr) : i.opcode ∈ opcodes := by
  cases i <;> simp [Instr.opcode, opcodes]

/-- A word with an opcode of the map decodes to a command with that opcode (30_encoding.md R68). -/
theorem decode_of_opField {w : CmdWord} {i : Instr} (hop : opField w = i.opcode) :
    ∃ j, decode w = .command j ∧ j.opcode = i.opcode := by
  rcases decode_cases w with ⟨j, hj, hopj⟩ | ⟨-, hout⟩
  · exact ⟨j, hj, hopj.symm.trans hop⟩
  · exact absurd (hop ▸ opcode_mem_opcodes i) hout

/-- Two words that agree on the bits a command reads decode alike (30_encoding.md R74): both decoded commands have
the same opcode and the same encoding. -/
theorem decode_of_and_usedBits {w w' : CmdWord} {i : Instr} (hd : decode w = .command i)
    (hagree : w &&& i.usedBits = w' &&& i.usedBits) : decode w' = .command i := by
  have hop : opField w' = i.opcode := by
    rw [← opField_and_usedBits w' i, ← hagree, opField_and_usedBits, opField_of_decode hd]
  obtain ⟨j, hj, hopj⟩ := decode_of_opField hop
  obtain ⟨hwf, henc⟩ := encode_of_decode hd
  obtain ⟨hwfj, hencj⟩ := encode_of_decode hj
  have hused : j.usedBits = i.usedBits := by rw [usedBits_eq, usedBits_eq, hopj]
  have hsame : encode j = encode i := by rw [hencj, henc, hused, hagree]
  have hij : Decoded.command j = .command i := by rw [← decode_encode hwfj, hsame, decode_encode hwf]
  rw [hj, hij]

/-- Settles O4: `decode_of_and_usedBits`, and both steps run the command decoded. -/
theorem ignoredBitsHaveNoEffect : Obligations.IgnoredBitsHaveNoEffect := by
  intro w w' i hd hagree
  have hd' := decode_of_and_usedBits hd hagree
  refine ⟨hd', fun s a rest => ?_⟩
  rw [step_command _ a w rest i rfl hd, step_command _ a w' rest i rfl hd']
  rfl

/-! ## Reserved opcodes -/

/-- A word is a command exactly when its opcode is one of the eight (30_encoding.md R68, R72). -/
theorem decode_command_iff (w : CmdWord) : (∃ i, decode w = .command i) ↔ opField w ∈ opcodes := by
  rcases decode_cases w with ⟨i, hi, hop⟩ | ⟨hreserved, hout⟩
  · exact iff_of_true ⟨i, hi⟩ (hop ▸ opcode_mem_opcodes i)
  · refine ⟨fun ⟨i, hi⟩ => ?_, fun hin => absurd hin hout⟩
    cases hreserved.symm.trans hi

/-- A word is reserved exactly when it is no command (30_encoding.md R72, R75). -/
theorem decode_reserved_iff (w : CmdWord) : (∃ op, decode w = .reserved op) ↔ opField w ∉ opcodes := by
  rw [← decode_command_iff]
  cases decode w <;> simp

/-- The opcode of a word as a number: its bits 71 to 64 (30_encoding.md R64). -/
theorem opField_toNat (w : CmdWord) : (opField w).toNat = w.toNat / 2 ^ 64 := by
  have hw := w.isLt
  rw [opField, BitVec.extractLsb'_toNat, Nat.shiftRight_eq_div_pow]
  exact Nat.mod_eq_of_lt (by omega)

/-- The eight opcodes as numbers (30_encoding.md R68). -/
theorem opField_mem_opcodes (w : CmdWord) : opField w ∈ opcodes ↔
    w.toNat / 2 ^ 64 ∈ [0x01, 0x02, 0x03, 0x04, 0x05, 0x10, 0x11, 0x12] := by
  have hinj : Function.Injective (BitVec.toNat (w := 8)) := fun _ _ => BitVec.eq_of_toNat_eq
  rw [← opField_toNat, ← List.mem_map_of_injective hinj]
  rfl

/-- Settles O5: `decode_command_iff` and `decode_reserved_iff`, the opcodes as numbers. -/
theorem reservedWordsAreExactlyTheOtherOpcodes : Obligations.ReservedWordsAreExactlyTheOtherOpcodes := by
  intro w
  rw [← opField_mem_opcodes]
  exact ⟨decode_command_iff w, decode_reserved_iff w⟩

/-- Settles O1: each word by its opcode. -/
theorem specWordsDecodeAsWritten : Obligations.SpecWordsDecodeAsWritten := by
  unfold Obligations.SpecWordsDecodeAsWritten
  decide

/-! ## The response word and FEED -/

/-- The high byte of a response word is the status number, the rest the data (30_encoding.md R65). -/
theorem word_toNat (r : Response) : r.word.toNat = r.st.code.toNat * 2 ^ 32 + r.d.toNat := by
  rw [Response.word, BitVec.toNat_append, ← Nat.shiftLeft_add_eq_or_of_lt r.d.isLt, Nat.shiftLeft_eq]

/-- Settles O9: `word_toNat`, with the number of each status. -/
theorem responseWordHoldsStatusAndData : Obligations.ResponseWordHoldsStatusAndData := by
  intro r
  rw [word_toNat]
  cases r.st <;> rfl

/-- Settles O10: the bits in their order are `bitsMsbFirst_getElem`. -/
theorem feedSendsTheBitsMostSignificantFirst : Obligations.FeedSendsTheBitsMostSignificantFirst := by
  intro f _
  refine ⟨by rw [Feed.expand, List.length_map, bitsMsbFirst_length], fun k h => ?_⟩
  simp only [Feed.expand, List.getElem_map, bitsMsbFirst_getElem]

end Sys2Proof.Machine

/-! The invariants (10_state.md section 4): each field's invariant is kept by every step, and all of them hold at
reset. -/

namespace Sys2Proof.Machine

/-! ## What the shared operations leave alone -/

section Seek
variable (b : Block) (bit : Bool)

@[simp] theorem seek_syncWord : (b.seek bit).syncWord = b.syncWord := by
  rcases seek_cases b bit with ⟨-, h⟩ | ⟨-, h⟩ <;> rw [h]
@[simp] theorem seek_syncMask : (b.seek bit).syncMask = b.syncMask := by
  rcases seek_cases b bit with ⟨-, h⟩ | ⟨-, h⟩ <;> rw [h]
@[simp] theorem seek_syncLength : (b.seek bit).syncLength = b.syncLength := by
  rcases seek_cases b bit with ⟨-, h⟩ | ⟨-, h⟩ <;> rw [h]
@[simp] theorem seek_storage : (b.seek bit).storage = b.storage := by
  rcases seek_cases b bit with ⟨-, h⟩ | ⟨-, h⟩ <;> rw [h]

/-- A bit while seeking leaves the three cursors, or sets them all to 0 (41_bit_ingest.md R88, R89). -/
theorem seek_cursors :
    ((b.seek bit).writeCursor = b.writeCursor ∧ (b.seek bit).readCursor = b.readCursor ∧
      (b.seek bit).bitCursor = b.bitCursor) ∨
    ((b.seek bit).writeCursor = 0 ∧ (b.seek bit).readCursor = 0 ∧ (b.seek bit).bitCursor = 0) := by
  rcases seek_cases b bit with ⟨-, h⟩ | ⟨-, h⟩ <;> rw [h]
  · exact .inr ⟨rfl, rfl, rfl⟩
  · exact .inl ⟨rfl, rfl, rfl⟩

end Seek

/-- The block room was made in: as it was when not full, else drained and rewound (41_bit_ingest.md R87, R94). -/
theorem makeRoom_some {cfg : Config} {b c : Block} (h : b.makeRoom cfg = some c) :
    (b.writeCursor ≠ cfg.capacity ∧ c = b) ∨
    (b.writeCursor = cfg.capacity ∧ b.readCursor = b.writeCursor ∧ c = b.rewind) := by
  rcases makeRoom_cases cfg b with ⟨hne, hroom⟩ | ⟨hfull, hdrained, hroom⟩ | ⟨-, -, hroom⟩ <;>
    cases hroom.symm.trans h
  · exact .inl ⟨hne, rfl⟩
  · exact .inr ⟨hfull, hdrained, rfl⟩

/-- Making room writes the two byte cursors at most (41_bit_ingest.md R94). -/
theorem makeRoom_eq {cfg : Config} {b c : Block} (h : b.makeRoom cfg = some c) :
    c = { b with writeCursor := c.writeCursor, readCursor := c.readCursor } := by
  rcases makeRoom_some h with ⟨-, rfl⟩ | ⟨-, -, rfl⟩ <;> rfl

section Room
variable {cfg : Config} {b c : Block} (h : b.makeRoom cfg = some c)
include h

/-- Making room leaves the store (41_bit_ingest.md R94). -/
theorem makeRoom_storage : c.storage = b.storage := by rw [makeRoom_eq h]

/-- Making room leaves the bit cursor (41_bit_ingest.md R94). -/
theorem makeRoom_bitCursor : c.bitCursor = b.bitCursor := by rw [makeRoom_eq h]

/-- Making room keeps the order of the byte cursors (10_state.md R35). -/
theorem makeRoom_readLeWrite (hle : b.readCursor ≤ b.writeCursor) : c.readCursor ≤ c.writeCursor := by
  rcases makeRoom_some h with ⟨-, rfl⟩ | ⟨-, -, rfl⟩
  · exact hle
  · exact le_rfl

end Room

/-- A legal configuration holds at least one byte (00_scope.md R7). -/
theorem one_le_capacity {cfg : Config} (h : cfg.wf = true) : 1 ≤ cfg.capacity :=
  of_decide_eq_true (Bool.and_eq_true_iff.mp h).1

/-- A length up to 32 fits `syncLength` (10_state.md R24). -/
theorem syncLength_ofNat_toNat {length : Nat} (h : length ≤ 32) : (BitVec.ofNat 6 length).toNat = length := by
  rw [BitVec.toNat_ofNat]
  exact Nat.mod_eq_of_lt (by omega)

/-! ## One invariant at a time -/

section Step
variable {s t : State} (h : step s = .next t)
include h

/-- A step keeps `syncLength` and the mask, or sets both from a length up to 32 (10_state.md R40). -/
theorem step_length_mask :
    (t.block.syncLength = s.block.syncLength ∧ t.block.syncMask = s.block.syncMask) ∨
    ∃ length ≤ 32, t.block.syncLength = BitVec.ofNat 6 length ∧ t.block.syncMask = lowMask length := by
  rcases (step_block_cases s t h).2 with hb | hb | ⟨value, length, hle, hb⟩ | hb | ⟨bit, -, hb⟩ |
    ⟨bit, c, -, -, hroom, hpack⟩ | ⟨-, hb | hb⟩
  · exact .inl (by simp [hb])
  · exact .inr ⟨0, by omega, by rw [hb]; exact ⟨rfl, rfl⟩⟩
  · exact .inr ⟨length, hle, by rw [hb]; exact ⟨rfl, rfl⟩⟩
  · exact .inl (by simp [hb])
  · exact .inl (by simp [hb])
  · rw [hpack.syncLength, hpack.syncMask, makeRoom_eq hroom]
    exact .inl ⟨rfl, rfl⟩
  · exact .inl (by simp [hb])
  · exact .inl (by simp [hb])

/-- Every step keeps `syncLength <= 32` (10_state.md R32). -/
theorem step_keeps_lengthLegal (hs : s.block.syncLength.toNat ≤ 32) : t.block.syncLength.toNat ≤ 32 := by
  rcases step_length_mask h with ⟨hlength, -⟩ | ⟨length, hle, hlength, -⟩
  · rwa [hlength]
  · rwa [hlength, syncLength_ofNat_toNat hle]

/-- Every step keeps the mask derived from the length (10_state.md R34). -/
theorem step_keeps_maskDerived (hs : s.block.syncMask = lowMask s.block.syncLength.toNat) :
    t.block.syncMask = lowMask t.block.syncLength.toNat := by
  rcases step_length_mask h with ⟨hlength, hmask⟩ | ⟨length, hle, hlength, hmask⟩
  · rw [hmask, hlength, hs]
  · rw [hmask, hlength, syncLength_ofNat_toNat hle]

/-- Every step keeps that pass-through mode packs (10_state.md R33). -/
theorem step_keeps_passThrough (hs : s.block.syncLength = 0#6 → s.block.acquired = true)
    (hzero : t.block.syncLength = 0#6) : t.block.acquired = true := by
  rcases (step_block_cases s t h).2 with hb | hb | ⟨value, length, hle, hb⟩ | hb | ⟨bit, ha, hb⟩ |
    ⟨bit, c, -, ha, hroom, hpack⟩ | ⟨-, hb | hb⟩
  · rw [hb] at hzero ⊢
    exact hs hzero
  · rw [hb, afterReset_acquired]
  · rw [hb, configure_syncLength, ← BitVec.toNat_inj, syncLength_ofNat_toNat hle] at hzero
    obtain rfl : length = 0 := hzero
    rw [hb, configure_acquired, acquiredAfterConfigure_zero]
  · rw [hb, dropSync_syncLength] at hzero
    rw [hb, dropSync_of_zero _ hzero, hs hzero]
  · rw [hb, seek_syncLength] at hzero
    exact absurd (ha.symm.trans (hs hzero)) Bool.false_ne_true
  · rw [hpack.acquired, makeRoom_eq hroom]
    exact ha
  · rw [hb] at hzero ⊢
    exact hs hzero
  · rw [hb, dropSync_syncLength] at hzero
    rw [hb, dropSync_of_zero _ hzero]
    exact hs hzero

/-- Every step keeps `readCursor <= writeCursor <= CAPACITY` (10_state.md R35). -/
theorem step_keeps_cursorBounds (hcfg : s.cfg.wf = true)
    (hs : s.block.readCursor ≤ s.block.writeCursor ∧ s.block.writeCursor ≤ s.cfg.capacity) :
    t.block.readCursor ≤ t.block.writeCursor ∧ t.block.writeCursor ≤ s.cfg.capacity := by
  have hcap := one_le_capacity hcfg
  rcases (step_block_cases s t h).2 with hb | hb | ⟨value, length, -, hb⟩ | hb | ⟨bit, -, hb⟩ |
    ⟨bit, c, -, -, hroom, hpack⟩ | ⟨hne, hb | hb⟩
  · rwa [hb]
  · simp [hb]
  · simpa [hb] using hs
  · simpa [hb] using hs
  · rw [hb]
    rcases seek_cursors s.block bit with ⟨hw, hr, -⟩ | ⟨hw, hr, -⟩ <;> rw [hw, hr]
    · exact hs
    · exact ⟨le_rfl, Nat.zero_le _⟩
  · have hlt := makeRoom_lt s.cfg s.block c hroom hcap hs.2
    have hle := makeRoom_readLeWrite hroom hs.1
    rw [hpack.readCursor, hpack.writeCursor]
    split_ifs <;> omega
  · rw [hb]
    dsimp only
    omega
  · rw [hb, dropSync_readCursor, dropSync_writeCursor]
    dsimp only
    omega

/-- Every step keeps a full store aligned to a byte (10_state.md R36). -/
theorem step_keeps_fullAligned (hs : s.Inv) (hfull : t.block.writeCursor = s.cfg.capacity) :
    t.block.bitCursor = 0 := by
  have hcap := one_le_capacity hs.cfgLegal
  have haligned := hs.blockInv.fullAligned
  rcases (step_block_cases s t h).2 with hb | hb | ⟨value, length, -, hb⟩ | hb | ⟨bit, -, hb⟩ |
    ⟨bit, c, -, -, hroom, hpack⟩ | ⟨-, hb | hb⟩
  · rw [hb] at hfull ⊢
    exact haligned hfull
  · rw [hb, afterReset_bitCursor]
  · rw [hb] at hfull ⊢
    exact haligned hfull
  · rw [hb, dropSync_writeCursor] at hfull
    rw [hb, dropSync_bitCursor, haligned hfull]
  · rw [hb] at hfull ⊢
    rcases seek_cursors s.block bit with ⟨hw, -, hbit⟩ | ⟨-, -, hbit⟩ <;> rw [hbit]
    exact haligned (hw.symm.trans hfull)
  · have hlt := makeRoom_lt s.cfg s.block c hroom hcap hs.blockInv.writeLeCapacity
    rw [hpack.writeCursor] at hfull
    rw [hpack.bitCursor]
    split_ifs at hfull ⊢
    · rfl
    · omega
  · rw [hb] at hfull ⊢
    exact haligned hfull
  · rw [hb, dropSync_writeCursor] at hfull
    rw [hb, dropSync_bitCursor]
    exact haligned hfull

/-- A step writes the store only by a bit packed where room was made (10_state.md R40). -/
theorem step_storage : t.block.storage = s.block.storage ∨
    ∃ bit c, (∃ a w rest, s.inputs = .command a w :: rest ∧ decode w = .command (.ingest bit)) ∧
      s.block.acquired = true ∧ s.block.makeRoom s.cfg = some c ∧ PackResult s.cfg c bit t.block := by
  rcases (step_block_cases s t h).2 with hb | hb | ⟨value, length, -, hb⟩ | hb | ⟨bit, -, hb⟩ |
    hpacked | ⟨-, hb | hb⟩
  · exact .inl (by rw [hb])
  · exact .inl (by rw [hb, afterReset_storage])
  · exact .inl (by rw [hb, configure_storage])
  · exact .inl (by rw [hb, dropSync_storage])
  · exact .inl (by rw [hb, seek_storage])
  · exact .inr hpacked
  · exact .inl (by rw [hb])
  · exact .inl (by rw [hb, dropSync_storage])

/-- Every step keeps the store canonical (log 2). -/
theorem step_keeps_storageCanonical (hs : s.block.storage.wf = true) : t.block.storage.wf = true := by
  rcases step_storage h with hstorage | ⟨bit, c, -, -, hroom, hpack⟩
  · rwa [hstorage]
  · exact hpack.canonical (makeRoom_storage hroom ▸ hs)

/-- Every step keeps the store within `0 .. CAPACITY - 1` (20_memory.md R45). -/
theorem step_keeps_storageWithin (hs : s.block.storage.within s.cfg.capacity = true) :
    t.block.storage.within s.cfg.capacity = true := by
  rcases step_storage h with hstorage | ⟨bit, c, -, -, hroom, hpack⟩
  · rwa [hstorage]
  · exact hpack.within (makeRoom_storage hroom ▸ hs)

/-- No step writes the configuration (10_state.md R43). -/
theorem step_cfg : t.cfg = s.cfg := (step_block_cases s t h).1

end Step

/-! ## The whole invariant -/

/-- Settles O38: one lemma for each of the three, and the reset values. -/
theorem lengthFlagAndCursorInvariantsHold : Obligations.LengthFlagAndCursorInvariantsHold := by
  refine ⟨fun s t h => ⟨step_keeps_lengthLegal h, fun hs hzero => ?_, fun hcfg hs => ?_⟩,
    fun cfg storage => ⟨rfl, rfl, rfl, rfl⟩⟩
  · rw [← syncLength_zero] at hs hzero
    exact step_keeps_passThrough h hs hzero
  · rw [step_cfg h]
    exact step_keeps_cursorBounds h hcfg hs

/-- Settles O39: each field of the invariant is kept by a lemma of its own. -/
theorem everyStepKeepsTheInvariant : Obligations.EveryStepKeepsTheInvariant := by
  intro s t hs h
  obtain ⟨hcfg, hblock⟩ := hs
  have hcursors := step_keeps_cursorBounds h hcfg ⟨hblock.readLeWrite, hblock.writeLeCapacity⟩
  refine ⟨by rwa [step_cfg h], ?_⟩
  rw [step_cfg h]
  exact {
    lengthLegal := step_keeps_lengthLegal h hblock.lengthLegal
    passThroughAcquired := step_keeps_passThrough h hblock.passThroughAcquired
    maskDerived := step_keeps_maskDerived h hblock.maskDerived
    readLeWrite := hcursors.1
    writeLeCapacity := hcursors.2
    fullAligned := step_keeps_fullAligned h ⟨hcfg, hblock⟩
    storageCanonical := step_keeps_storageCanonical h hblock.storageCanonical
    storageWithin := step_keeps_storageWithin h hblock.storageWithin }

/-- The invariant holds after a reset over any store that meets its two clauses (10_state.md R42). -/
theorem afterReset_inv {cfg : Config} {storage : Memory} (hwf : storage.wf = true)
    (hwithin : storage.within cfg.capacity = true) : (Block.afterReset storage).Inv cfg where
  lengthLegal := Nat.zero_le 32
  passThroughAcquired _ := rfl
  maskDerived := rfl
  readLeWrite := le_rfl
  writeLeCapacity := Nat.zero_le _
  fullAligned _ := rfl
  storageCanonical := hwf
  storageWithin := hwithin

/-- Settles O40: `afterReset_inv`, for the model's configuration and for every other. -/
theorem theInvariantHoldsAtReset : Obligations.TheInvariantHoldsAtReset :=
  ⟨⟨rfl, afterReset_inv rfl rfl⟩, fun _ _ hcfg hwf hwithin => ⟨hcfg, afterReset_inv hwf hwithin⟩⟩

end Sys2Proof.Machine

/-! The queue of unread bytes (10_state.md R37): what each event does to it. -/

namespace Sys2Proof.Machine

/-- The write cursor one further, the older unread bytes as they were: one byte joins the queue at its end. -/
theorem unread_concat {b c : Block} (hread : c.readCursor = b.readCursor) (hwrite : c.writeCursor = b.writeCursor + 1)
    (hle : b.readCursor ≤ b.writeCursor)
    (hsame : ∀ i, i ≠ b.writeCursor → c.storage.read i = b.storage.read i) :
    c.unread = b.unread ++ [c.storage.read b.writeCursor] := by
  have hcount : b.writeCursor + 1 - b.readCursor = (b.writeCursor - b.readCursor) + 1 := by omega
  have hlast : b.readCursor + (b.writeCursor - b.readCursor) = b.writeCursor := by omega
  rw [Block.unread, Block.unread, hread, hwrite, hcount, List.range_succ, List.map_append, List.map_singleton, hlast]
  congr 1
  refine List.map_congr_left fun k hk => hsame _ ?_
  have := List.mem_range.mp hk
  omega

/-- The queue depends on no field but the two byte cursors and the store. -/
theorem unread_eq_of_fields {b c : Block} (hwrite : b.writeCursor = c.writeCursor) (hread : b.readCursor = c.readCursor)
    (hstorage : b.storage = c.storage) : b.unread = c.unread :=
  unread_congr hwrite hread fun i _ _ => by rw [hstorage]

/-- DropSync leaves the queue (40_sync_control.md R86). -/
@[simp] theorem unread_dropSync (b : Block) : b.dropSync.unread = b.unread :=
  unread_eq_of_fields (dropSync_writeCursor b) (dropSync_readCursor b) (dropSync_storage b)

/-- A rewind drops consumed bytes only (41_bit_ingest.md R94). -/
theorem unread_makeRoom {cfg : Config} {b c : Block} (h : b.makeRoom cfg = some c) : c.unread = b.unread := by
  rcases makeRoom_some h with ⟨-, rfl⟩ | ⟨-, hdrained, rfl⟩
  · rfl
  · rw [unread_eq_nil hdrained, unread_eq_nil rfl]

/-- A bit while seeking empties the queue when it acquires, and else leaves it (41_bit_ingest.md R88, R89). -/
theorem unread_seek {b : Block} (bit : Bool) (ha : b.acquired = false) :
    (b.seek bit).unread = if (b.seek bit).acquired = true then [] else b.unread := by
  split_ifs with hacq
  · exact unread_eq_nil (seek_drained ha hacq)
  · rcases seek_cases b bit with ⟨-, hseek⟩ | ⟨-, hseek⟩ <;> rw [hseek] at hacq ⊢
    · exact absurd rfl hacq
    · rfl

section Pack
variable {cfg : Config} {b b' : Block} {bit : Bool} (h : PackResult cfg b bit b') (hwf : b.storage.wf = true)
  (hle : b.readCursor ≤ b.writeCursor)
include h hwf

/-- A bit that completes no byte leaves the queue (41_bit_ingest.md R90). -/
theorem unread_pack_of_ne (h7 : b.bitCursor ≠ 7) : b'.unread = b.unread := by
  have hwrite : b'.writeCursor = b.writeCursor := by rw [h.writeCursor, if_neg h7]
  refine unread_congr hwrite h.readCursor fun i _ hi => h.read_other hwf i ?_
  omega

include hle in
/-- A bit that completes a byte puts it at the end of the queue (41_bit_ingest.md R92). -/
theorem unread_pack_of_last (h7 : b.bitCursor = 7) : b'.unread = b.unread ++ [b'.storage.read b.writeCursor] := by
  have hwrite : b'.writeCursor = b.writeCursor + 1 := by rw [h.writeCursor, if_pos h7]
  exact unread_concat h.readCursor hwrite hle (h.read_other hwf)

end Pack

section Commands
variable {s t : State} (hs : s.Inv)
include hs

/-- INGEST and the queue: a completed byte joins it, an acquisition empties it (41_bit_ingest.md R89, R92). -/
theorem exec_ingest_unread {bit : Bool} (h : exec (.ingest bit) s = .next t) :
    if s.block.acquired = true then
      (if s.block.bitCursor = 7 then ∃ v, t.block.unread = s.block.unread ++ [v]
        else t.block.unread = s.block.unread)
    else t.block.unread = if t.block.acquired = true then [] else s.block.unread := by
  obtain ⟨-, hblock⟩ := hs
  rcases execIngest_next h with ⟨ha, rfl⟩ | ⟨ha, hfull, -, rfl⟩ | ⟨ha, c, hroom, rfl⟩
  · rw [if_neg (ne_true_of_eq_false ha)]
    exact unread_seek bit ha
  · rw [if_pos ha, hblock.fullAligned hfull, if_neg (by decide)]
    rfl
  · have hpack := pack_result s.cfg c bit
    have hcwf : c.storage.wf = true := makeRoom_storage hroom ▸ hblock.storageCanonical
    have hcle := makeRoom_readLeWrite hroom hblock.readLeWrite
    rw [if_pos ha, ← makeRoom_bitCursor hroom, ← unread_makeRoom hroom, succeed_block]
    split_ifs with h7
    · exact ⟨_, unread_pack_of_last hpack hcwf hcle h7⟩
    · exact unread_pack_of_ne hpack hcwf h7

/-- CONSUME and the queue: nothing to answer, or the first byte answered and taken (42_consumer.md R99, R100). -/
theorem exec_consume_unread {drop : Bool} (h : exec (.consume drop) s = .next t) :
    (s.block.unread = [] ∧ t.block.unread = [] ∧ t.rsp = some ⟨.bufferEmpty, 0#32⟩) ∨
    ∃ v others, s.block.unread = v :: others ∧ t.block.unread = others ∧ t.rsp = some ⟨.ok, v.zeroExtend 32⟩ := by
  obtain ⟨-, hblock⟩ := hs
  have hle := hblock.readLeWrite
  have hcap := hblock.writeLeCapacity
  rcases execConsume_next h with ⟨hdrained, rfl⟩ | ⟨hne, rfl⟩
  · exact .inl ⟨unread_eq_nil hdrained, unread_eq_nil hdrained, rfl⟩
  · have hlt : s.block.readCursor < s.block.writeCursor := by omega
    refine .inr ⟨_, _, unread_cons hlt, ?_, ?_⟩
    · cases drop with
      | false => rfl
      | true => exact unread_dropSync _
    · rw [succeed_rsp, memRead_of_lt _ _ _ (by omega)]

end Commands

/-- AVAIL answers the length of the queue (42_consumer.md R98). -/
theorem available_eq_unread_length (b : Block) : b.available = BitVec.ofNat 32 b.unread.length := by
  rw [unread_length]
  rfl

/-- Settles O45: event by event, each by what its command does to the two byte cursors. -/
theorem unreadBytesFormAQueue : Obligations.UnreadBytesFormAQueue := by
  intro s t e rest hs hin hstep
  cases e with
  | reset =>
    cases (step_reset s rest hin).symm.trans hstep
    exact unread_eq_nil rfl
  | command a w =>
    dsimp only
    rcases step_command_cases s t a w rest hin hstep with ⟨op, hd, rfl⟩ | ⟨i, hd, hexec⟩ <;> rw [hd]
    · rfl
    · have hsa : (s.accept a rest).Inv := ⟨hs.cfgLegal, hs.blockInv⟩
      cases i with
      | cfgsync value length =>
        rcases lt_or_ge 32 length with hgt | hle
        · cases (exec_cfgsync_of_gt _ value hgt).symm.trans hexec
          rfl
        · cases (exec_cfgsync_of_le _ value hle).symm.trans hexec
          rfl
      | dropsync =>
        cases hexec
        exact unread_dropSync s.block
      | ingest bit => exact exec_ingest_unread (s := s.accept a rest) hsa hexec
      | avail =>
        cases hexec
        exact ⟨rfl, congrArg (fun d => some (Response.mk .ok d)) (available_eq_unread_length s.block)⟩
      | consume drop =>
        rcases exec_consume_unread hsa hexec with ⟨hnil, ht⟩ | ⟨v, others, hcons, ht⟩
        · rw [accept_block] at hnil
          simp only [hnil]
          exact ht
        · rw [accept_block] at hcons
          simp only [hcons]
          exact ht
      | randmax max => exact congrArg Block.unread (exec_randmax_block (s := s.accept a rest) hexec)
      | randrange min max => exact congrArg Block.unread (exec_randrange_block (s := s.accept a rest) hexec)
      | randbyte => exact congrArg Block.unread (exec_randbyte_block (s := s.accept a rest) hexec)

/-- Settles O44: the one byte a step can store stands at or above the write cursor, unless the store was full and
drained. -/
theorem unreadBytesAreNeverOverwritten : Obligations.UnreadBytesAreNeverOverwritten := by
  intro s t hs hstep
  have hwf := hs.blockInv.storageCanonical
  rcases step_storage hstep with hstorage | ⟨bit, c, hingest, ha, hroom, hpack⟩
  · rw [hstorage]
    exact ⟨fun i _ _ => rfl, fun _ i _ => rfl⟩
  · rcases makeRoom_some hroom with ⟨-, rfl⟩ | ⟨hfull, hdrained, rfl⟩
    · exact ⟨fun i _ hi => hpack.read_other hwf i hi.ne, fun _ i hi => hpack.read_other hwf i hi.ne⟩
    · refine ⟨fun i hlo hhi => ?_, fun hnot => ?_⟩
      · omega
      · obtain ⟨a, w, rest, hin, hd⟩ := hingest
        exact absurd ⟨ha, hfull, hdrained, a, w, rest, bit, hin, hd⟩ hnot

end Sys2Proof.Machine

/-! Agreement up to what no command can read (10_state.md R38, R39): every operation on the block keeps it, every
response is the same, and so every step keeps it. -/

namespace Sys2Proof.Machine

/-! ## Blocks -/

section Block
variable {b c : Block} (h : b.Agree c)
include h

/-- Blocks that agree are configured alike (40_sync_control.md R81). -/
theorem Block.Agree.configure (value : Word) (length : Nat) :
    (b.configure value length).Agree (c.configure value length) :=
  { h with
    syncWord := rfl
    syncMask := rfl
    syncLength := rfl
    acquired := by rw [configure_acquired, configure_acquired, acquiredAfterConfigure_eq_or,
      acquiredAfterConfigure_eq_or, h.acquired] }

/-- Blocks that agree drop sync alike (40_sync_control.md R85). -/
theorem Block.Agree.dropSync : b.dropSync.Agree c.dropSync := by
  by_cases hzero : b.syncLength = 0#6
  · rwa [dropSync_of_zero b hzero, dropSync_of_zero c (h.syncLength ▸ hzero)]
  · rw [dropSync_of_pos b hzero, dropSync_of_pos c (h.syncLength ▸ hzero)]
    exact { h with acquired := rfl, shiftRegister := rfl }

/-- Blocks that agree shift and compare alike; an acquisition leaves no byte to read (41_bit_ingest.md R88, R89). -/
theorem Block.Agree.seek (bit : Bool) : (b.seek bit).Agree (c.seek bit) := by
  have hiff : shiftIn b.shiftRegister bit &&& b.syncMask = b.syncWord ↔
      shiftIn c.shiftRegister bit &&& c.syncMask = c.syncWord := by
    rw [h.shiftRegister, h.syncMask, h.syncWord]
  by_cases hmatch : shiftIn b.shiftRegister bit &&& b.syncMask = b.syncWord
  · rw [seek_of_match hmatch, seek_of_match (hiff.mp hmatch)]
    exact { h with
      shiftRegister := by rw [h.shiftRegister]
      acquired := rfl
      writeCursor := rfl
      readCursor := rfl
      bitCursor := rfl
      complete := nofun
      packed := nofun }
  · rw [seek_of_noMatch hmatch, seek_of_noMatch fun hc => hmatch (hiff.mpr hc)]
    exact { h with shiftRegister := by rw [h.shiftRegister] }

/-- Blocks that agree advance alike (42_consumer.md R99). -/
theorem Block.Agree.advance : Block.Agree { b with readCursor := b.readCursor + 1 }
    { c with readCursor := c.readCursor + 1 } :=
  { h with readCursor := congrArg (· + 1) h.readCursor }

/-- Blocks that agree and are byte-aligned are rewound alike: no byte is left to read (41_bit_ingest.md R94). -/
theorem Block.Agree.rewind (haligned : b.bitCursor = 0) : b.rewind.Agree c.rewind :=
  { h with
    writeCursor := rfl
    readCursor := rfl
    complete := nofun
    packed := by
      rw [rewind_bitCursor, haligned]
      nofun }

/-- Blocks that agree have room made alike, or have none alike (41_bit_ingest.md R93, R94). -/
theorem Block.Agree.makeRoom {cfg : Config} (haligned : b.writeCursor = cfg.capacity → b.bitCursor = 0) :
    (b.makeRoom cfg = none ∧ c.makeRoom cfg = none) ∨
    ∃ b' c', b.makeRoom cfg = some b' ∧ c.makeRoom cfg = some c' ∧ b'.Agree c' := by
  have hwrite := h.writeCursor
  have hread := h.readCursor
  rcases makeRoom_cases cfg b with ⟨hne, hroom⟩ | ⟨hfull, hdrained, hroom⟩ | ⟨hfull, hunread, hroom⟩
  · exact .inr ⟨b, c, hroom, if_neg (hwrite ▸ hne), h⟩
  · refine .inr ⟨_, _, hroom, ?_, h.rewind (haligned hfull)⟩
    exact makeRoom_of_drained (hwrite ▸ hfull) (by omega)
  · refine .inl ⟨hroom, ?_⟩
    exact (if_pos (hwrite ▸ hfull)).trans (if_neg (by omega))

end Block

/-! ## Machines -/

section Machine
variable {s s' : State} (h : s.Agree s')

include h in
/-- A machine that agrees with another is that other with a block that agrees in its place. -/
theorem State.Agree.eq_withBlock : s' = s.withBlock s'.block := by
  obtain ⟨hcfg, -, hinputs, hsender, hrsp, hsource⟩ := h
  cases s
  cases s'
  cases hcfg
  cases hinputs
  cases hsender
  cases hrsp
  cases hsource
  rfl

include h in
/-- The same response with blocks that agree. -/
theorem State.Agree.respond {b b' : Block} (hb : b.Agree b') (st : Status) (d : Word) :
    (s.respond b st d).Agree (s'.respond b' st d) :=
  { h with block := hb, rsp := rfl }

include h in
/-- The same event taken off the order. -/
theorem State.Agree.accept (a : Agent) (rest : List Event) : (s.accept a rest).Agree (s'.accept a rest) :=
  { h with inputs := rfl, sender := rfl }

include h in
/-- The same block written in both. -/
theorem State.Agree.of_actsWithoutBlock {i : Instr} (hacts : ActsWithoutBlock i s) :
    ∃ t t', exec i s = .next t ∧ exec i s' = .next t' ∧ t.Agree t' := by
  obtain ⟨t, ht, hall⟩ := hacts
  obtain ⟨hblock, -⟩ := ActsWithoutBlock.next ⟨t, ht, hall⟩ ht
  refine ⟨t, t.withBlock s'.block, ht, ?_, ?_⟩
  · rw [h.eq_withBlock]
    exact hall s'.block
  · exact ⟨rfl, hblock ▸ h.block, rfl, rfl, rfl, rfl⟩

variable (hs : s.Inv)
include h hs

/-- INGEST on machines that agree (41_bit_ingest.md R87). -/
theorem State.Agree.exec_ingest (hs' : s'.Inv) (bit : Bool) :
    ∃ t t', exec (.ingest bit) s = .next t ∧ exec (.ingest bit) s' = .next t' ∧ t.Agree t' := by
  have hacquired := h.block.acquired
  cases ha : s.block.acquired with
  | false =>
    exact ⟨_, _, exec_ingest_of_seeking bit ha, exec_ingest_of_seeking bit (hacquired ▸ ha),
      h.respond (h.block.seek bit) .ok 0#32⟩
  | true =>
    have ha' : s'.block.acquired = true := hacquired ▸ ha
    rcases h.block.makeRoom hs.blockInv.fullAligned with ⟨hroom, hroom'⟩ | ⟨c, c', hroom, hroom', hc⟩
    · rw [h.cfg] at hroom'
      exact ⟨_, _, execIngest_of_noRoom bit ha hroom, execIngest_of_noRoom bit ha' hroom',
        h.respond h.block .overflow 0#32⟩
    · have hlt := makeRoom_lt s.cfg s.block c hroom (one_le_capacity hs.cfgLegal) hs.blockInv.writeLeCapacity
      have hwf : c.storage.wf = true := makeRoom_storage hroom ▸ hs.blockInv.storageCanonical
      have hwf' : c'.storage.wf = true := makeRoom_storage hroom' ▸ hs'.blockInv.storageCanonical
      have hpack := hc.pack (pack_result s.cfg c bit) (pack_result s.cfg c' bit) hwf hwf' hlt
      rw [h.cfg] at hroom'
      refine ⟨_, _, execIngest_of_room bit ha hroom, execIngest_of_room bit ha' hroom', ?_⟩
      rw [← h.cfg]
      exact h.respond hpack .ok 0#32

/-- CONSUME on machines that agree: the byte read stands below the write cursor (42_consumer.md R99). -/
theorem State.Agree.exec_consume (drop : Bool) :
    ∃ t t', exec (.consume drop) s = .next t ∧ exec (.consume drop) s' = .next t' ∧ t.Agree t' := by
  have hle := hs.blockInv.readLeWrite
  have hcap := hs.blockInv.writeLeCapacity
  have hread := h.block.readCursor
  have hwrite := h.block.writeCursor
  by_cases hdrained : s.block.readCursor = s.block.writeCursor
  · exact ⟨_, _, exec_consume_of_drained drop hdrained, exec_consume_of_drained drop (by omega),
      h.respond h.block .bufferEmpty 0#32⟩
  · refine ⟨_, _, execConsume_of_lt drop s hdrained (by omega), execConsume_of_lt drop s' (by omega) ?_, ?_⟩
    · rw [← h.cfg]
      omega
    · rw [← hread, h.block.complete _ (by omega)]
      refine h.respond ?_ .ok _
      cases drop with
      | false => exact hread ▸ h.block.advance
      | true => exact hread ▸ h.block.advance.dropSync

/-- Every command keeps agreement, response and all (10_state.md R39). -/
theorem State.Agree.exec (hs' : s'.Inv) (i : Instr) :
    ∃ t t', exec i s = .next t ∧ exec i s' = .next t' ∧ t.Agree t' := by
  cases i with
  | cfgsync value length =>
    rcases lt_or_ge 32 length with hgt | hle
    · exact ⟨_, _, exec_cfgsync_of_gt s value hgt, exec_cfgsync_of_gt s' value hgt, h.respond h.block _ _⟩
    · exact ⟨_, _, exec_cfgsync_of_le s value hle, exec_cfgsync_of_le s' value hle,
        h.respond (h.block.configure value length) _ _⟩
  | dropsync => exact ⟨_, _, exec_dropsync s, exec_dropsync s', h.respond h.block.dropSync _ _⟩
  | ingest bit => exact h.exec_ingest hs hs' bit
  | avail =>
    have hcount : s'.block.available = s.block.available := by
      rw [Block.available, Block.available, h.block.writeCursor, h.block.readCursor]
    exact ⟨_, _, exec_avail_of_available rfl, exec_avail_of_available hcount, h.respond h.block _ _⟩
  | consume drop => exact h.exec_consume hs drop
  | randmax max => exact h.of_actsWithoutBlock (randmax_actsWithoutBlock s max)
  | randrange min max => exact h.of_actsWithoutBlock (randrange_actsWithoutBlock s min max)
  | randbyte => exact h.of_actsWithoutBlock (randbyte_actsWithoutBlock s)

end Machine

/-- Settles O46: step by step, a RESET leaves no byte to read and every command is `State.Agree.exec`. -/
theorem staleBitsAreNeverObservable : Obligations.StaleBitsAreNeverObservable := by
  intro s s' t hs hs' h hstep
  have hinputs := h.inputs
  rcases step_cases s with ⟨hin, hnext⟩ | ⟨rest, hin, hnext⟩ | ⟨a, w, rest, op, hin, hd, hnext⟩ |
    ⟨a, w, rest, i, hin, hd, hnext⟩ <;> rw [hin] at hinputs
  · cases hnext.symm.trans hstep
    exact ⟨s', step_nil s' hinputs.symm, h⟩
  · cases hnext.symm.trans hstep
    refine ⟨_, step_reset s' rest hinputs.symm, ?_⟩
    exact { h with
      block := ⟨rfl, rfl, rfl, rfl, rfl, rfl, rfl, rfl, nofun, nofun⟩, inputs := rfl, sender := rfl, rsp := rfl }
  · cases hnext.symm.trans hstep
    exact ⟨_, step_reserved s' a w rest op hinputs.symm hd, (h.accept a rest).respond h.block _ _⟩
  · obtain ⟨u, u', hu, hu', hagree⟩ := (h.accept a rest).exec ⟨hs.cfgLegal, hs.blockInv⟩
      ⟨hs'.cfgLegal, hs'.blockInv⟩ i
    cases hu.symm.trans (hnext.symm.trans hstep)
    exact ⟨u', (step_command s' a w rest i hinputs.symm hd).trans hu', hagree⟩

end Sys2Proof.Machine

/-! The response to a command word (60_exceptions.md R113 to R120; 30_encoding.md R65 to R67): every command goes on
and answers, a failure has its one cause and changes nothing, and the data is in the range of its command. -/

namespace Sys2Proof.Machine

/-! ## Every step goes on -/

/-- Every command goes on, from every state (60_exceptions.md R113). -/
theorem exec_next (i : Instr) (s : State) : ∃ t, exec i s = .next t := by
  cases i with
  | cfgsync value length => exact (cfgsync_actsWithoutSource s value length).imp fun _ h => h.1
  | dropsync => exact ⟨_, exec_dropsync s⟩
  | ingest bit => exact (ingest_actsWithoutSource s bit).imp fun _ h => h.1
  | avail => exact ⟨_, exec_avail_of_available rfl⟩
  | consume drop => exact (consume_actsWithoutSource s drop).imp fun _ h => h.1
  | randmax max => exact (randmax_actsWithoutBlock s max).imp fun _ h => h.1
  | randrange min max => exact (randrange_actsWithoutBlock s min max).imp fun _ h => h.1
  | randbyte => exact (randbyte_actsWithoutBlock s).imp fun _ h => h.1

/-- Every step goes on, whatever the next event is (60_exceptions.md R113). -/
theorem step_next (s : State) : ∃ t, step s = .next t := by
  rcases step_cases s with ⟨-, hs⟩ | ⟨rest, -, hs⟩ | ⟨a, w, rest, op, -, -, hs⟩ | ⟨a, w, rest, i, -, -, hs⟩
  · exact ⟨_, hs⟩
  · exact ⟨_, hs⟩
  · exact ⟨_, hs⟩
  · rw [hs]
    exact exec_next i _

section Step
variable {s t : State} {a : Agent} {w : CmdWord} {rest : List Event}
variable (hin : s.inputs = .command a w :: rest) (hstep : step s = .next t)
include hin hstep

/-- A command word gives a response (30_encoding.md R65). -/
theorem step_responds : ∃ r, t.rsp = some r := by
  rcases step_command_cases s t a w rest hin hstep with ⟨op, -, rfl⟩ | ⟨i, -, hexec⟩
  · exact ⟨_, rfl⟩
  · obtain ⟨r, hrsp, -⟩ := exec_status i _ t hexec
    exact ⟨r, hrsp⟩

/-- A command word is taken off the order and its sender noted (00_scope.md R4). -/
theorem step_takes_command : t.sender = some a ∧ t.inputs = rest := by
  rcases step_command_cases s t a w rest hin hstep with ⟨op, -, rfl⟩ | ⟨i, -, hexec⟩
  · exact ⟨rfl, rfl⟩
  · obtain ⟨-, hinputs, hsender⟩ := exec_surroundings i _ t hexec
    exact ⟨hsender, hinputs⟩

end Step

/-- Settles O41: `step_next`, and `step_responds` where the event is a command word. -/
theorem noStepStops : Obligations.NoStepStops := by
  intro s
  obtain ⟨t, ht⟩ := step_next s
  exact ⟨t, ht, fun _ _ _ hin => step_responds hin ht⟩

/-! ## Failures -/

/-- Settles O36: the cause of a failure fixes the whole next state. -/
theorem failedCommandsChangeNothing : Obligations.FailedCommandsChangeNothing := by
  intro s t a w rest r hin hstep hrsp hst
  obtain ⟨ht, -⟩ := step_eq_fail hin hstep hrsp ((step_status_iff hin hstep hrsp hst).mp rfl)
  exact ht

section Causes
variable {cfg : Config} {b : Block} {d : Decoded}

/-- `OVERFLOW` is INGEST's alone (60_exceptions.md R116). -/
theorem failureCause_overflow_iff : FailureCause cfg b d .overflow ↔
    ∃ bit, d = .command (.ingest bit) ∧ b.acquired = true ∧ b.writeCursor = cfg.capacity ∧
      b.readCursor ≠ b.writeCursor := by
  constructor
  · rintro ⟨⟩
    exact ⟨_, rfl, ‹_›, ‹_›, ‹_›⟩
  · rintro ⟨bit, rfl, ha, hfull, hunread⟩
    exact .noRoom bit ha hfull hunread

/-- `UNSUPPORTED` is that of a reserved word, or of an RNG command without a generator (60_exceptions.md R117). -/
theorem failureCause_unsupported_iff : FailureCause cfg b d .unsupported ↔
    (∃ op, d = .reserved op) ∨
    (cfg.hasRng = false ∧ ((∃ max, d = .command (.randmax max)) ∨
      (∃ min max, d = .command (.randrange min max)) ∨ d = .command .randbyte)) := by
  constructor
  · intro hcause
    cases hcause with
    | randmaxWithoutRng max hrng => exact .inr ⟨hrng, .inl ⟨max, rfl⟩⟩
    | randrangeWithoutRng min max hrng => exact .inr ⟨hrng, .inr (.inl ⟨min, max, rfl⟩)⟩
    | randbyteWithoutRng hrng => exact .inr ⟨hrng, .inr (.inr rfl)⟩
    | reservedOpcode op => exact .inl ⟨op, rfl⟩
  · rintro (⟨op, rfl⟩ | ⟨hrng, ⟨max, rfl⟩ | ⟨min, max, rfl⟩ | rfl⟩)
    · exact .reservedOpcode op
    · exact .randmaxWithoutRng max hrng
    · exact .randrangeWithoutRng min max hrng
    · exact .randbyteWithoutRng hrng

end Causes

/-- Settles O35: the two causes by `step_status_iff`; under the cursor invariant a store that is not drained has its
read cursor below the write cursor. -/
theorem overflowAndUnsupportedHaveOneCauseEach : Obligations.OverflowAndUnsupportedHaveOneCauseEach := by
  intro s t a w rest r hs hin hstep hrsp
  have hcause (st : Status) := step_status_iff (st := st) hin hstep hrsp
  have hunread : s.block.readCursor < s.block.writeCursor ↔ s.block.readCursor ≠ s.block.writeCursor :=
    hs.blockInv.readLeWrite.lt_iff_ne
  rw [hunread]
  exact ⟨(hcause .overflow nofun).trans failureCause_overflow_iff,
    (hcause .unsupported nofun).trans failureCause_unsupported_iff⟩

/-- Settles O21: the cause of `OVERFLOW` is at hand. -/
theorem ingestOnAFullUndrainedStoreOverflows : Obligations.IngestOnAFullUndrainedStoreOverflows :=
  fun _ bit ha hfull hunread => exec_of_failureCause (.noRoom bit ha hfull hunread.ne)

/-- Settles O8: the cause of `UNSUPPORTED` is at hand. -/
theorem rngCommandsAreUnsupportedWithoutRng : Obligations.RngCommandsAreUnsupportedWithoutRng :=
  fun _ min max hrng => ⟨exec_of_failureCause (.randmaxWithoutRng max hrng),
    exec_of_failureCause (.randrangeWithoutRng min max hrng), exec_of_failureCause (.randbyteWithoutRng hrng)⟩

/-- Settles O7: a reserved word is a cause of `UNSUPPORTED`. -/
theorem reservedWordAnswersUnsupported : Obligations.ReservedWordAnswersUnsupported :=
  fun _ _ _ _ op hin hd => step_of_failureCause hin (hd ▸ .reservedOpcode op)

/-! ## The data of a response -/

/-- A byte as response data is below 256 (30_encoding.md R67). -/
theorem setWidth_byte_lt (v : Byte) : (v.setWidth 32).toNat < 256 := by
  have hv := v.isLt
  rw [BitVec.toNat_setWidth_of_le (by omega)]
  exact hv

section Data
variable {s t : State} {r : Response}

/-- CFGSYNC answers data 0 (30_encoding.md R67). -/
theorem exec_cfgsync_data {value : Word} {length : Nat} (h : exec (.cfgsync value length) s = .next t)
    (hrsp : t.rsp = some r) : r.d = 0#32 := by
  rcases lt_or_ge 32 length with hgt | hle
  · cases (exec_cfgsync_of_gt s value hgt).symm.trans h
    cases hrsp
    rfl
  · cases (exec_cfgsync_of_le s value hle).symm.trans h
    cases hrsp
    rfl

/-- INGEST answers data 0 (30_encoding.md R67). -/
theorem exec_ingest_data {bit : Bool} (h : exec (.ingest bit) s = .next t) (hrsp : t.rsp = some r) :
    r.d = 0#32 := by
  rcases execIngest_next h with ⟨-, rfl⟩ | ⟨-, -, -, rfl⟩ | ⟨-, c, -, rfl⟩ <;> cases hrsp <;> rfl

/-- CONSUME answers a byte, or data 0 when it fails (42_consumer.md R99, R100). -/
theorem exec_consume_data {drop : Bool} (h : exec (.consume drop) s = .next t) (hrsp : t.rsp = some r) :
    r.d.toNat < 256 := by
  rcases execConsume_next h with ⟨-, rfl⟩ | ⟨-, rfl⟩ <;> cases hrsp
  · exact Nat.zero_lt_succ 255
  · exact setWidth_byte_lt _

/-- RANDBYTE answers a byte, or data 0 when it fails (43_rng.md R108). -/
theorem exec_randbyte_data (h : exec .randbyte s = .next t) (hrsp : t.rsp = some r) : r.d.toNat < 256 := by
  cases hrng : s.cfg.hasRng with
  | false =>
    cases (execRandbyte_of_noRng s hrng).symm.trans h
    cases hrsp
    exact Nat.zero_lt_succ 255
  | true =>
    cases (execRandbyte_of_rng s hrng).symm.trans h
    cases hrsp
    exact setWidth_byte_lt _

end Data

/-- Settles O37: the command taken, the response given, and its data command by command. -/
theorem everyCommandGivesOneResponse : Obligations.EveryCommandGivesOneResponse := by
  intro s t a w rest hin hstep
  obtain ⟨hsender, hinputs⟩ := step_takes_command hin hstep
  obtain ⟨r, hrsp⟩ := step_responds hin hstep
  refine ⟨hsender, hinputs, r, hrsp, fun i hd => ?_⟩
  have hexec : exec i (s.accept a rest) = .next t := (step_command s a w rest i hin hd).symm.trans hstep
  cases i with
  | cfgsync value length => exact exec_cfgsync_data hexec hrsp
  | dropsync =>
    cases hexec
    cases hrsp
    rfl
  | ingest bit => exact exec_ingest_data hexec hrsp
  | avail => trivial
  | consume drop => exact exec_consume_data hexec hrsp
  | randmax max => trivial
  | randrange min max => trivial
  | randbyte => exact exec_randbyte_data hexec hrsp

/-! ## One event at a time -/

/-- Settles O6: `step_command`; a table word arrives as the next command. -/
theorem stepRunsTheDecodedCommand : Obligations.StepRunsTheDecodedCommand := by
  refine ⟨fun s a w rest i hin hd => step_command s a w rest i hin hd, fun s nbits w i htable => ?_⟩
  have hd : decode (tableWord w) = .command i := by
    rw [decodeTableWord] at htable
    cases hdec : decode (tableWord w) with
    | command j =>
      rw [hdec] at htable
      rw [Option.some.inj htable]
    | reserved op =>
      rw [hdec] at htable
      cases htable
  exact step_command (s.withFetchWord nbits w) .controller _ s.inputs i rfl hd

/-- Settles O53: the RESET event is `performReset`. -/
theorem resetSetsEveryFieldButTheStore : Obligations.ResetSetsEveryFieldButTheStore :=
  fun s rest hin => step_reset s rest hin

/-- A step takes the next event off the order, and no other (00_scope.md R4). -/
theorem step_inputs {s t : State} (h : step s = .next t) :
    (s.inputs = [] ∧ t.inputs = []) ∨ ∃ e, s.inputs = e :: t.inputs := by
  cases hin : s.inputs with
  | nil =>
    cases (step_nil s hin).symm.trans h
    exact .inl ⟨rfl, hin⟩
  | cons e rest =>
    refine .inr ⟨e, ?_⟩
    cases e with
    | reset =>
      cases (step_reset s rest hin).symm.trans h
      rfl
    | command a w => rw [(step_takes_command hin h).2]

/-- Settles O55: the event taken is a RESET, another agent's command, or the agent's own next command. -/
theorem eachAgentKeepsItsOwnOrder : Obligations.EachAgentKeepsItsOwnOrder := by
  intro s t a h
  rcases step_inputs h with ⟨hs, ht⟩ | ⟨e, hs⟩
  · exact .inl (by rw [hs, ht])
  · rw [hs]
    cases e with
    | reset => exact .inl rfl
    | command a' w =>
      by_cases heq : a' = a
      · subst heq
        exact .inr ⟨w, rfl, if_pos rfl⟩
      · exact .inl (if_neg heq)

end Sys2Proof.Machine

/-! Who writes what (10_state.md R40): command by command the fields of the block left alone, the bytes of the store
left alone, and what sets and clears the flag. -/

namespace Sys2Proof.Machine

/-! ## The fields each command writes -/

/-- Everything CFGSYNC can have done (40_sync_control.md R81, R82). -/
theorem exec_cfgsync_next {s t : State} {value : Word} {length : Nat}
    (h : exec (.cfgsync value length) s = .next t) :
    t.block = s.block ∨ t.block = s.block.configure value length := by
  rcases lt_or_ge 32 length with hgt | hle
  · cases (exec_cfgsync_of_gt s value hgt).symm.trans h
    exact .inl rfl
  · cases (exec_cfgsync_of_le s value hle).symm.trans h
    exact .inr rfl

/-- DropSync writes the window and the flag at most (40_sync_control.md R85). -/
theorem dropSync_eq (b : Block) : b.dropSync =
    { b with shiftRegister := b.dropSync.shiftRegister, acquired := b.dropSync.acquired } :=
  block_ext (dropSync_syncWord b) (dropSync_syncMask b) (dropSync_syncLength b) rfl rfl (dropSync_storage b)
    (dropSync_writeCursor b) (dropSync_readCursor b) (dropSync_bitCursor b)

section Ingest
variable {s t : State} {bit : Bool} (h : exec (.ingest bit) s = .next t)
include h

/-- INGEST while seeking is `seek` on the block (41_bit_ingest.md R88). -/
theorem exec_ingest_block_of_seeking (ha : s.block.acquired = false) : t.block = s.block.seek bit := by
  cases (exec_ingest_of_seeking bit ha).symm.trans h
  rfl

/-- INGEST while packing leaves the block, or packs its bit where room was made (41_bit_ingest.md R90, R93). -/
theorem exec_ingest_block_of_packing (ha : s.block.acquired = true) :
    (t.block = s.block ∧ s.block.makeRoom s.cfg = none) ∨
    ∃ c, s.block.makeRoom s.cfg = some c ∧ PackResult s.cfg c bit t.block := by
  cases hroom : s.block.makeRoom s.cfg with
  | none =>
    cases (execIngest_of_noRoom bit ha hroom).symm.trans h
    exact .inl ⟨rfl, rfl⟩
  | some c =>
    cases (execIngest_of_room bit ha hroom).symm.trans h
    exact .inr ⟨c, rfl, pack_result s.cfg c bit⟩

/-- The fields INGEST writes while packing; `readCursor` only when the store is full (10_state.md R40). -/
theorem exec_ingest_frame_of_packing (ha : s.block.acquired = true) :
    t.block = { s.block with
      storage := t.block.storage
      writeCursor := t.block.writeCursor
      readCursor := t.block.readCursor
      bitCursor := t.block.bitCursor } ∧
    (s.block.writeCursor ≠ s.cfg.capacity → t.block.readCursor = s.block.readCursor) := by
  rcases exec_ingest_block_of_packing h ha with ⟨hb, -⟩ | ⟨c, hroom, hpack⟩
  · rw [hb]
    exact ⟨rfl, fun _ => rfl⟩
  · have hc := makeRoom_eq hroom
    refine ⟨block_ext ?_ ?_ ?_ ?_ ?_ rfl rfl rfl rfl, fun hne => ?_⟩
    · rw [hpack.syncWord, hc]
    · rw [hpack.syncMask, hc]
    · rw [hpack.syncLength, hc]
    · rw [hpack.shiftRegister, hc]
    · rw [hpack.acquired, hc]
    · rcases makeRoom_some hroom with ⟨-, rfl⟩ | ⟨hfull, -, -⟩
      · exact hpack.readCursor
      · exact absurd hfull hne

/-- The fields INGEST writes while seeking; only the window without a match (10_state.md R40). -/
theorem exec_ingest_frame_of_seeking (ha : s.block.acquired = false) :
    t.block = { s.block with
      shiftRegister := t.block.shiftRegister
      acquired := t.block.acquired
      writeCursor := t.block.writeCursor
      readCursor := t.block.readCursor
      bitCursor := t.block.bitCursor } ∧
    (t.block.acquired = false → t.block = { s.block with shiftRegister := t.block.shiftRegister }) := by
  rw [exec_ingest_block_of_seeking h ha]
  rcases seek_cases s.block bit with ⟨-, hseek⟩ | ⟨-, hseek⟩ <;> rw [hseek]
  · exact ⟨rfl, nofun⟩
  · exact ⟨rfl, fun _ => rfl⟩

end Ingest

/-- The fields CONSUME writes; only `readCursor` without a DropSync (10_state.md R40). -/
theorem exec_consume_frame {s t : State} {drop : Bool} (h : exec (.consume drop) s = .next t) :
    t.block = { s.block with
      shiftRegister := t.block.shiftRegister
      acquired := t.block.acquired
      readCursor := t.block.readCursor } ∧
    (drop = false ∨ s.block.syncLength.toNat = 0 →
      t.block = { s.block with readCursor := t.block.readCursor }) := by
  rcases execConsume_next h with ⟨-, rfl⟩ | ⟨-, rfl⟩
  · exact ⟨rfl, fun _ => rfl⟩
  · cases drop with
    | false => exact ⟨rfl, fun _ => rfl⟩
    | true =>
      rw [succeed_block, if_pos rfl]
      refine ⟨(dropSync_eq _).trans ?_, fun hzero => ?_⟩
      · rw [dropSync_readCursor]
      · have hpass := (syncLength_zero s.block).mpr (hzero.resolve_left nofun)
        have hsame := dropSync_of_zero { s.block with readCursor := s.block.readCursor + 1 } hpass
        rw [hsame]

/-- Settles O42: the fields left alone, command by command. -/
theorem onlyTheListedFieldsAreWritten : Obligations.OnlyTheListedFieldsAreWritten := by
  refine ⟨fun s t h => step_cfg h, fun s t i h => ?_⟩
  cases i with
  | cfgsync value length =>
    rcases exec_cfgsync_next h with hb | hb <;> rw [hb]
    · exact ⟨rfl, fun _ => rfl⟩
    · exact ⟨rfl, acquiredAfterConfigure_pos s.block length⟩
  | dropsync =>
    cases h
    exact ⟨dropSync_eq s.block, fun hzero => dropSync_of_zero _ ((syncLength_zero _).mpr hzero)⟩
  | ingest bit =>
    dsimp only
    split_ifs with ha
    · exact exec_ingest_frame_of_packing h ha
    · exact exec_ingest_frame_of_seeking h (eq_false_of_ne_true ha)
  | avail =>
    cases h
    rfl
  | consume drop => exact exec_consume_frame h
  | randmax max => exact exec_randmax_block h
  | randrange min max => exact exec_randrange_block h
  | randbyte => exact exec_randbyte_block h

/-! ## The bytes of the store -/

/-- No command but INGEST writes the store, the write cursor or the bit cursor (10_state.md R40). -/
theorem exec_keeps_packing_fields {i : Instr} {s t : State} (h : exec i s = .next t) (hi : ∀ bit, i ≠ .ingest bit) :
    t.block.storage = s.block.storage ∧ t.block.writeCursor = s.block.writeCursor ∧
      t.block.bitCursor = s.block.bitCursor := by
  cases i with
  | cfgsync value length => rcases exec_cfgsync_next h with hb | hb <;> simp [hb]
  | dropsync =>
    cases h
    simp
  | ingest bit => exact absurd rfl (hi bit)
  | avail =>
    cases h
    exact ⟨rfl, rfl, rfl⟩
  | consume drop =>
    rw [(exec_consume_frame h).1]
    exact ⟨rfl, rfl, rfl⟩
  | randmax max => simp [exec_randmax_block h]
  | randrange min max => simp [exec_randrange_block h]
  | randbyte => simp [exec_randbyte_block h]

/-- INGEST changes no byte but the one at the write cursor it packs at (20_memory.md R57). -/
theorem exec_ingest_reads {s t : State} {bit : Bool} (h : exec (.ingest bit) s = .next t)
    (hwf : s.block.storage.wf = true) :
    (s.block.acquired = false ∨ s.block.makeRoom s.cfg = none →
      ∀ a, t.block.storage.read a = s.block.storage.read a) ∧
    (∀ b, s.block.acquired = true → s.block.makeRoom s.cfg = some b →
      ∀ a, a ≠ b.writeCursor → t.block.storage.read a = s.block.storage.read a) := by
  cases ha : s.block.acquired with
  | false =>
    refine ⟨fun _ a => ?_, nofun⟩
    rw [exec_ingest_block_of_seeking h ha, seek_storage]
  | true =>
    rcases exec_ingest_block_of_packing h ha with ⟨hb, hroom⟩ | ⟨c, hroom, hpack⟩ <;> rw [hroom]
    · exact ⟨fun _ a => by rw [hb], nofun⟩
    · refine ⟨fun hnone => absurd hnone (by simp), fun b _ hbc a hne => ?_⟩
      obtain rfl : c = b := Option.some.inj hbc
      rw [← makeRoom_storage hroom] at hwf ⊢
      exact hpack.read_other hwf a hne

/-- Settles O43: `exec_ingest_reads`, and `exec_keeps_packing_fields` for every other command. -/
theorem onlyTheByteAtTheWriteCursorIsStored : Obligations.OnlyTheByteAtTheWriteCursorIsStored := by
  intro s t i h hwf
  have hsame (hi : ∀ bit, i ≠ .ingest bit) (a : Nat) : t.block.storage.read a = s.block.storage.read a := by
    rw [(exec_keeps_packing_fields h hi).1]
  cases i with
  | ingest bit => exact exec_ingest_reads h hwf
  | cfgsync value length => exact hsame nofun
  | dropsync => exact hsame nofun
  | avail => exact hsame nofun
  | consume drop => exact hsame nofun
  | randmax max => exact hsame nofun
  | randrange min max => exact hsame nofun
  | randbyte => exact hsame nofun

/-- Settles O57: the three facts of a canonical store. -/
theorem storeReadsBackWhatWasWritten : Obligations.StoreReadsBackWhatWasWritten := by
  refine ⟨fun m i v hwf => ⟨Memory.write_wf m i v hwf, ?_, fun k hk => ?_⟩, Memory.ext_of_read⟩
  · rw [Memory.read_write m i v i hwf, if_pos rfl]
  · rw [Memory.read_write m i v k hwf, if_neg hk]

/-- Settles O22: room is made by a rewind, and the bit is packed there at bit 0 of byte 0. -/
theorem ingestOnAFullDrainedStoreRewinds : Obligations.IngestOnAFullDrainedStoreRewinds := by
  intro s bit hs ha hfull hdrained
  have hcap := one_le_capacity hs.cfgLegal
  have hwf : s.block.rewind.storage.wf = true := hs.blockInv.storageCanonical
  have hbit : s.block.rewind.bitCursor = 0 := hs.blockInv.fullAligned hfull
  have h7 : s.block.rewind.bitCursor ≠ 7 := by
    rw [hbit]
    decide
  have hpack := pack_result s.cfg s.block.rewind bit
  refine ⟨_, execIngest_of_room bit ha (makeRoom_of_drained hfull hdrained), ?_, hpack.read_other hwf, fun k hk => ?_⟩
  · refine congrArg (s.respond · .ok 0#32) (hpack.block_eq.trans ?_)
    rw [if_neg h7, if_neg h7, hbit]
    rfl
  · rw [succeed_block]
    refine (congrArg (·.getLsbD k) (hpack.read_at hwf hcap)).trans ?_
    rw [packedByte_getLsbD_of_ne s.cfg bit h7 hk, hbit]
    rfl

/-! ## The flag -/

/-- Only an INGEST that matches and a CFGSYNC with length 0 set the flag (10_state.md R27). -/
theorem exec_sets_acquired {i : Instr} {s t : State} (h : exec i s = .next t) (hs : s.block.acquired = false)
    (ht : t.block.acquired = true) :
    (∃ bit, i = .ingest bit ∧ t.block.shiftRegister &&& s.block.syncMask = s.block.syncWord) ∨
    ∃ value, i = .cfgsync value 0 := by
  by_contra hnot
  rw [not_or] at hnot
  obtain ⟨hingest, hcfgsync⟩ := hnot
  have hstays : t.block.acquired = false := by
    refine exec_keeps_seeking hs (fun bit hi => ?_) (fun value hi => hcfgsync ⟨value, hi⟩) h
    subst hi
    rw [exec_ingest_block_of_seeking h hs] at ht hingest
    rcases seek_cases s.block bit with ⟨hmatch, hseek⟩ | ⟨-, hseek⟩ <;> rw [hseek] at ht hingest
    · exact hingest ⟨bit, rfl, hmatch⟩
    · exact absurd (hs.symm.trans ht) Bool.false_ne_true
  exact absurd (hstays.symm.trans ht) Bool.false_ne_true

/-- A DropSync that clears the flag is outside pass-through mode (40_sync_control.md R85). -/
theorem dropSync_clears_acquired {b : Block} (hb : b.acquired = true) (h : b.dropSync.acquired = false) :
    0 < b.syncLength.toNat := by
  refine Nat.pos_of_ne_zero fun hzero => ?_
  rw [dropSync_of_zero b ((syncLength_zero b).mpr hzero), hb] at h
  cases h

/-- Only DROPSYNC and a CONSUME with drop 1 that finds a byte clear the flag (10_state.md R27). -/
theorem exec_clears_acquired {i : Instr} {s t : State} (h : exec i s = .next t) (hs : s.block.acquired = true)
    (ht : t.block.acquired = false) :
    0 < s.block.syncLength.toNat ∧
      (i = .dropsync ∨ (i = .consume true ∧ s.block.readCursor ≠ s.block.writeCursor)) := by
  have hchanged (hsame : t.block.acquired = s.block.acquired) : False :=
    absurd (ht.symm.trans (hsame.trans hs)) Bool.false_ne_true
  cases i with
  | cfgsync value length =>
    rcases exec_cfgsync_next h with hb | hb
    · exact (hchanged (by rw [hb])).elim
    · rw [hb, configure_acquired, acquiredAfterConfigure_eq_or, hs] at ht
      cases ht
  | dropsync =>
    cases h
    exact ⟨dropSync_clears_acquired hs ht, .inl rfl⟩
  | ingest bit => exact (hchanged (by rw [(exec_ingest_frame_of_packing h hs).1])).elim
  | avail =>
    cases h
    exact (hchanged rfl).elim
  | consume drop =>
    rcases execConsume_next h with ⟨-, rfl⟩ | ⟨hne, rfl⟩
    · exact (hchanged rfl).elim
    · cases drop with
      | false => exact (hchanged rfl).elim
      | true =>
        have hpos := dropSync_clears_acquired (b := { s.block with readCursor := s.block.readCursor + 1 }) hs ht
        exact ⟨hpos, .inr ⟨rfl, hne⟩⟩
  | randmax max => exact (hchanged (by rw [exec_randmax_block h])).elim
  | randrange min max => exact (hchanged (by rw [exec_randrange_block h])).elim
  | randbyte => exact (hchanged (by rw [exec_randbyte_block h])).elim

/-- Settles O52: a RESET sets the flag, and a command is `exec_sets_acquired` or `exec_clears_acquired`. -/
theorem whatSetsAndClearsTheFlag : Obligations.WhatSetsAndClearsTheFlag := by
  intro s t h
  have hunset (hfalse : s.block.acquired = false) (htrue : s.block.acquired = true) : False :=
    Bool.false_ne_true (hfalse.symm.trans htrue)
  rcases step_cases s with ⟨-, hnext⟩ | ⟨rest, hin, hnext⟩ | ⟨a, w, rest, op, -, -, hnext⟩ |
    ⟨a, w, rest, i, hin, hd, hnext⟩
  · cases hnext.symm.trans h
    exact ⟨fun hs ht => (hunset hs ht).elim, fun hs ht => (hunset ht hs).elim⟩
  · cases hnext.symm.trans h
    exact ⟨fun _ _ => .inl ⟨rest, hin⟩, nofun⟩
  · cases hnext.symm.trans h
    exact ⟨fun hs ht => (hunset hs ht).elim, fun hs ht => (hunset ht hs).elim⟩
  · have hexec : exec i (s.accept a rest) = .next t := hnext.symm.trans h
    refine ⟨fun hs ht => .inr ⟨a, w, rest, hin, ?_⟩, fun hs ht => ?_⟩
    · rcases exec_sets_acquired hexec hs ht with ⟨bit, rfl, hmatch⟩ | ⟨value, rfl⟩
      · exact .inl ⟨bit, hd, hmatch⟩
      · exact .inr ⟨value, hd⟩
    · obtain ⟨hpos, hi⟩ := exec_clears_acquired hexec hs ht
      refine ⟨hpos, a, w, rest, hin, ?_⟩
      rcases hi with rfl | ⟨rfl, hne⟩
      · exact .inl hd
      · exact .inr ⟨hd, hne⟩

/-- Settles O51: after DROPSYNC the window is 0, and so it is after one more 0. -/
theorem anAllZeroSyncWordAcquiresAtTheFirstZero : Obligations.AnAllZeroSyncWordAcquiresAtTheFirstZero := by
  intro s t u hpos hword hdrop hingest
  cases (exec_dropsync s).symm.trans hdrop
  have hblock := dropSync_of_pos s.block fun hzero => hpos.ne' ((syncLength_zero _).mp hzero)
  have hseeking : s.block.dropSync.acquired = false := by rw [hblock]
  have hwindow : shiftIn 0#32 false = 0#32 := rfl
  have hmatch : shiftIn s.block.dropSync.shiftRegister false &&& s.block.dropSync.syncMask =
      s.block.dropSync.syncWord := by
    rw [hblock, hwindow, BitVec.zero_and, hword]
  rw [exec_ingest_block_of_seeking hingest hseeking]
  refine ⟨hseeking, ?_⟩
  rw [succeed_block, seek_of_match hmatch]
  exact ⟨rfl, rfl, rfl⟩

/-! ## The agents -/

/-- No command but CFGSYNC writes the sync word, the mask or the length (10_state.md R40). -/
theorem exec_keeps_sync_fields {i : Instr} {s t : State} (h : exec i s = .next t)
    (hi : ∀ value length, i ≠ .cfgsync value length) :
    t.block.syncWord = s.block.syncWord ∧ t.block.syncMask = s.block.syncMask ∧
      t.block.syncLength = s.block.syncLength := by
  cases i with
  | cfgsync value length => exact absurd rfl (hi value length)
  | dropsync =>
    cases h
    simp
  | ingest bit =>
    cases ha : s.block.acquired with
    | false => simp [exec_ingest_block_of_seeking h ha]
    | true =>
      rw [(exec_ingest_frame_of_packing h ha).1]
      exact ⟨rfl, rfl, rfl⟩
  | avail =>
    cases h
    exact ⟨rfl, rfl, rfl⟩
  | consume drop =>
    rw [(exec_consume_frame h).1]
    exact ⟨rfl, rfl, rfl⟩
  | randmax max => simp [exec_randmax_block h]
  | randrange min max => simp [exec_randrange_block h]
  | randbyte => simp [exec_randbyte_block h]

/-- No command but the RNG client's draws entropy (43_rng.md R112). -/
theorem exec_keeps_source {i : Instr} {s t : State} (h : exec i s = .next t) (hi : Instr.role i ≠ .rngClient) :
    t.source = s.source := by
  cases i with
  | cfgsync value length => exact ((cfgsync_actsWithoutSource s value length).next h).1
  | dropsync => exact ((dropsync_actsWithoutSource s).next h).1
  | ingest bit => exact ((ingest_actsWithoutSource s bit).next h).1
  | avail => exact ((avail_actsWithoutSource s).next h).1
  | consume drop => exact ((consume_actsWithoutSource s drop).next h).1
  | randmax max => exact absurd rfl hi
  | randrange min max => exact absurd rfl hi
  | randbyte => exact absurd rfl hi

/-- A disciplined command comes from the agent whose command it is (00_scope.md R5). -/
theorem role_of_disciplined {a : Agent} {w : CmdWord} {i : Instr} (h : (Event.command a w).disciplined = true)
    (hd : decode w = .command i) : Instr.role i = a := by
  rw [Event.disciplined, hd] at h
  exact of_decide_eq_true h

/-- Settles O56: what only one command writes, only the agent whose command it is writes. -/
theorem disciplinedAgentsAreTheOnlyWriters : Obligations.DisciplinedAgentsAreTheOnlyWriters := by
  intro s t e rest hin hdisciplined hstep
  cases e with
  | reset =>
    cases (step_reset s rest hin).symm.trans hstep
    exact ⟨fun _ => .inl rfl, fun _ => .inl rfl, fun hne => absurd rfl hne⟩
  | command a w =>
    rcases step_command_cases s t a w rest hin hstep with ⟨op, -, rfl⟩ | ⟨i, hd, hexec⟩
    · exact ⟨fun hne => by simp [State.performReserved] at hne, fun hne => by simp [State.performReserved] at hne,
        fun hne => absurd rfl hne⟩
    · have hrole := role_of_disciplined hdisciplined hd
      refine ⟨fun hne => .inr ⟨w, ?_⟩, fun hne => .inr ⟨w, ?_⟩, fun hne => ⟨w, ?_⟩⟩
      · by_cases hi : ∃ bit, i = .ingest bit
        · obtain ⟨bit, rfl⟩ := hi
          exact congrArg (Event.command · w) hrole.symm
        · obtain ⟨hstorage, hwrite, hbit⟩ := exec_keeps_packing_fields hexec fun bit h => hi ⟨bit, h⟩
          rcases hne with hne | hne | hne
          · exact absurd hwrite hne
          · exact absurd hbit hne
          · exact absurd hstorage hne
      · by_cases hi : ∃ value length, i = .cfgsync value length
        · obtain ⟨value, length, rfl⟩ := hi
          exact congrArg (Event.command · w) hrole.symm
        · obtain ⟨hword, hmask, hlength⟩ := exec_keeps_sync_fields hexec fun value length h => hi ⟨value, length, h⟩
          rcases hne with hne | hne | hne
          · exact absurd hword hne
          · exact absurd hmask hne
          · exact absurd hlength hne
      · by_cases hi : Instr.role i = .rngClient
        · rw [← hrole, hi]
        · exact absurd (exec_keeps_source (s := s.accept a rest) hexec hi) hne

end Sys2Proof.Machine

/-! The primitives of 00_scope.md section 7 on numbers, and the generator (43_rng.md): results, ranges and draws of
RANDMAX, RANDRANGE and RANDBYTE. -/

namespace Sys2Proof.Machine

/-! ## Primitives -/

/-- `Wrap32` lands in the signed range (00_scope.md R17). -/
theorem wrap32_range (i : Int) : -2147483648 ≤ wrap32 i ∧ wrap32 i ≤ 2147483647 := (inS32_iff _).mp (inS32_s32 _)

/-- `Wrap32` changes a number by a multiple of `2^32` (00_scope.md R17). -/
theorem dvd_sub_wrap32 (i : Int) : (4294967296 : Int) ∣ i - wrap32 i := by
  rw [wrap32_eq_bmod]
  exact Int.dvd_self_sub_bmod

/-- Settles O14: `lowMask_toNat`, the two facts of `wrap32`, and the remainder by `|m|` with its range. -/
theorem maskWrapAndRemainderMeetTheirRules : Obligations.MaskWrapAndRemainderMeetTheirRules := by
  refine ⟨lowMask_toNat, fun i => ?_, fun a m ha hm => ?_⟩
  · obtain ⟨hlo, hhi⟩ := wrap32_range i
    exact ⟨hlo, hhi, dvd_sub_wrap32 i⟩
  · obtain ⟨hlo, hhi, -⟩ := truncRem_range a m ha hm
    rw [Int.natCast_natAbs] at hhi
    exact ⟨by rw [truncRem_eq_emod a m ha, Int.natCast_natAbs], hlo, hhi⟩

/-- Settles O12: `reverse8_getLsbD`, `reverse8_reverse8`, and the examples of the rule. -/
theorem reverseMirrorsTheBits : Obligations.ReverseMirrorsTheBits :=
  ⟨fun v i hi => reverse8_getLsbD v i (by omega), reverse8_reverse8, by decide⟩

/-- `GuardedAbs` is the absolute value but for its guard (00_scope.md R16). -/
theorem guardedAbs_eq_ite (i : Int) : guardedAbs i = if i = -2 ^ 31 then 2 ^ 31 - 1 else |i| := by
  split_ifs with hmin
  · rw [hmin]
    rfl
  · exact guardedAbs_eq_abs hmin

/-- A value in the signed range is read back from the response data (00_scope.md R15). -/
theorem toInt_u32 {i : Int} (hlo : -2147483648 ≤ i) (hhi : i ≤ 2147483647) : (u32 i).toInt = i := by
  rw [← s32_eq_toInt, s32_u32 i ((inS32_iff i).mpr ⟨hlo, hhi⟩)]

/-- The wrapped span of two signed numbers (43_rng.md R106). -/
theorem wrap32_span {min max : Int} (hmin : -2147483648 ≤ min) (hmax : max ≤ 2147483647) (hlt : min < max) :
    wrap32 (max - min) = if max - min ≤ 2147483647 then max - min else max - min - 4294967296 := by
  obtain ⟨hlo, hhi⟩ := wrap32_range (max - min)
  obtain ⟨k, hk⟩ := dvd_sub_wrap32 (max - min)
  split_ifs <;> omega

/-- The wrapped span of a range is not 0 (43_rng.md R106). -/
theorem wrap32_span_ne_zero {min max : Int} (hmin : -2147483648 ≤ min) (hmax : max ≤ 2147483647) (hlt : min < max) :
    wrap32 (max - min) ≠ 0 := by
  rw [wrap32_span hmin hmax hlt]
  split_ifs <;> omega

/-! ## Entropy bytes -/

/-- The raw value is four bytes in order; an external source that lists them answers those (43_rng.md R104). -/
theorem drawWord_bytes (cfg : Config) (src : Source) :
    ∃ e0 e1 e2 e3 : Byte, (src.drawWord cfg).1 = e0 ++ e1 ++ e2 ++ e3 ∧
      (cfg.entropyMode = .external → ∀ (f0 f1 f2 f3 : Byte) (rest : List Byte),
        src.pending = f0 :: f1 :: f2 :: f3 :: rest →
        e0 = f0 ∧ e1 = f1 ∧ e2 = f2 ∧ e3 = f3 ∧ (src.drawWord cfg).2.pending = rest) := by
  refine ⟨_, _, _, _, rfl, fun hmode f0 f1 f2 f3 rest hbytes => ?_⟩
  obtain ⟨pending, drawn⟩ := src
  obtain rfl : pending = _ := hbytes
  simp only [Source.drawWord, draw_external cfg hmode, and_self]

/-- RandMax of a bound other than 0: the guarded magnitude of four bytes, reduced by the truncated remainder
(43_rng.md R103, R104). -/
theorem randMax_bytes (cfg : Config) (src : Source) {max : Int} (hmax : max ≠ 0) :
    ∃ (e0 e1 e2 e3 : Byte) (raw mag : Int) (src' : Source),
      raw = (e0 ++ e1 ++ e2 ++ e3).toInt ∧
      mag = (if raw = -2 ^ 31 then 2 ^ 31 - 1 else |raw|) ∧
      src.randMax cfg max = (mag.tmod max, src') ∧
      (cfg.entropyMode = .external → ∀ (f0 f1 f2 f3 : Byte) (rest : List Byte),
        src.pending = f0 :: f1 :: f2 :: f3 :: rest →
        e0 = f0 ∧ e1 = f1 ∧ e2 = f2 ∧ e3 = f3 ∧ src'.pending = rest) := by
  obtain ⟨e0, e1, e2, e3, hraw, hbytes⟩ := drawWord_bytes cfg src
  refine ⟨e0, e1, e2, e3, _, _, _, rfl, rfl, ?_, hbytes⟩
  rw [randMax_of_ne cfg src max hmax, truncRem_eq_tmod, guardedAbs_eq_ite, s32_eq_toInt, hraw]

/-! ## RANDMAX -/

/-- Settles O25: `randMax_bytes` in the response. -/
theorem randmaxResult : Obligations.RandmaxResult := by
  intro s a b hrng
  refine ⟨?_, execRandmax_of_rng s 0 hrng, fun max _ _ hmax => ?_⟩
  · have hd := decode_randmax (opField_packFields 0x10#8 a b)
    rwa [bField_packFields, s32_eq_toInt] at hd
  · obtain ⟨e0, e1, e2, e3, raw, mag, src, hraw, hmag, hrand, hbytes⟩ := randMax_bytes s.cfg s.source hmax
    refine ⟨e0, e1, e2, e3, raw, mag, src, hraw, hmag, (execRandmax_of_rng s max hrng).trans ?_, hbytes⟩
    rw [hrand]
    rfl

/-- Settles O26: the range of RandMax, read back from the response data. -/
theorem randmaxStaysBelowItsBound : Obligations.RandmaxStaysBelowItsBound := by
  intro s max hrng _ _
  refine ⟨_, _, execRandmax_of_rng s max hrng, succeedDrawn_rsp .., rfl, ?_⟩
  by_cases hmax : max = 0
  · subst hmax
    exact ⟨le_rfl, fun _ => rfl, fun hne => absurd rfl hne⟩
  · obtain ⟨hlo, hlt, hhi⟩ := randMax_range s.cfg s.source max hmax
    rw [toInt_u32 (by omega) hhi]
    rw [Int.natCast_natAbs] at hlt
    exact ⟨hlo, fun hzero => absurd hzero hmax, fun _ => hlt⟩

/-! ## RANDRANGE -/

/-- Settles O27: RandMax of the wrapped span, by `randMax_bytes`. -/
theorem randrangeResult : Obligations.RandrangeResult := by
  intro s a b hrng
  refine ⟨?_, fun min max hmin _ _ hmax => ⟨execRandrange_of_le s min max hrng, fun hlt => ?_⟩⟩
  · have hd := decode_randrange (opField_packFields 0x11#8 a b)
    rwa [aField_packFields, bField_packFields, s32_eq_toInt, s32_eq_toInt] at hd
  · obtain ⟨e0, e1, e2, e3, raw, mag, src, hraw, hmag, hrand, hbytes⟩ :=
      randMax_bytes s.cfg s.source (wrap32_span_ne_zero hmin hmax hlt)
    refine ⟨e0, e1, e2, e3, raw, mag, _, src, hraw, hmag, wrap32_span hmin hmax hlt,
      (execRandrange_of_lt s min max hrng hlt).trans ?_, hbytes⟩
    rw [hrand, u32_wrap32]
    rfl

/-- Settles O28: RandMax stays below the magnitude of the wrapped span, which is at most `max - min`. -/
theorem randrangeStaysInItsRange : Obligations.RandrangeStaysInItsRange := by
  intro s min max hrng hmin hmin' hmax hmax'
  rcases le_or_gt max min with hle | hlt
  · refine ⟨_, _, execRandrange_of_le s min max hrng hle, succeedDrawn_rsp .., rfl, fun _ => ?_, fun hlt => ?_⟩
    · exact toInt_u32 hmin hmin'
    · omega
  · obtain ⟨hlo, hrand, -⟩ := randMax_range s.cfg s.source _ (wrap32_span_ne_zero hmin hmax' hlt)
    have hspan : ((wrap32 (max - min)).natAbs : Int) ≤ max - min := by
      rw [wrap32_span hmin hmax' hlt]
      split_ifs <;> omega
    refine ⟨_, _, execRandrange_of_lt s min max hrng hlt, succeedDrawn_rsp .., rfl, fun hle => ?_, fun _ => ?_⟩
    · omega
    · rw [u32_wrap32, toInt_u32 (by omega) (by omega)]
      omega

/-! ## RANDBYTE -/

/-- Settles O29: one draw, by what answers it. -/
theorem randbyteResult : Obligations.RandbyteResult := by
  intro s a b hrng
  refine ⟨decode_randbyte (opField_packFields _ a b), _, _, execRandbyte_of_rng s hrng, fun hstub => ?_,
    fun hmode f rest hbytes => ?_⟩
  · rw [draw_stub s.cfg s.source hstub]
  · have hsource : s.source = { pending := f :: rest, drawn := s.source.drawn } := by rw [← hbytes]
    rw [hsource, draw_external s.cfg hmode]
    exact ⟨rfl, rfl⟩

/-! ## Draws -/

section Draws
variable {s t : State}

/-- RANDMAX draws four bytes, none for `max = 0` or without a generator (43_rng.md R109). -/
theorem exec_randmax_drawn {max : Int} (h : exec (.randmax max) s = .next t) :
    t.source.drawn = s.source.drawn + if s.cfg.hasRng = true ∧ max ≠ 0 then 4 else 0 := by
  cases hrng : s.cfg.hasRng with
  | false =>
    cases (execRandmax_of_noRng s max hrng).symm.trans h
    simp
  | true =>
    cases (execRandmax_of_rng s max hrng).symm.trans h
    rw [succeedDrawn_source, randMax_drawn]
    by_cases hmax : max = 0 <;> simp [hmax]

/-- RANDRANGE draws four bytes, none for `min >= max` or without a generator (43_rng.md R109). -/
theorem exec_randrange_drawn {min max : Int} (hmin : -2147483648 ≤ min) (hmax : max ≤ 2147483647)
    (h : exec (.randrange min max) s = .next t) :
    t.source.drawn = s.source.drawn + if s.cfg.hasRng = true ∧ min < max then 4 else 0 := by
  cases hrng : s.cfg.hasRng with
  | false =>
    cases (execRandrange_of_noRng s min max hrng).symm.trans h
    simp
  | true =>
    rcases le_or_gt max min with hle | hlt
    · cases (execRandrange_of_le s min max hrng hle).symm.trans h
      simp [hle]
    · cases (execRandrange_of_lt s min max hrng hlt).symm.trans h
      rw [succeedDrawn_source, randMax_drawn, if_neg (wrap32_span_ne_zero hmin hmax hlt), if_pos ⟨rfl, hlt⟩]

/-- RANDBYTE draws one byte, none without a generator (43_rng.md R109). -/
theorem exec_randbyte_drawn (h : exec .randbyte s = .next t) :
    t.source.drawn = s.source.drawn + if s.cfg.hasRng = true then 1 else 0 := by
  cases hrng : s.cfg.hasRng with
  | false =>
    cases (execRandbyte_of_noRng s hrng).symm.trans h
    rfl
  | true =>
    cases (execRandbyte_of_rng s hrng).symm.trans h
    exact draw_drawn s.cfg s.source

end Draws

/-- Settles O30: a lemma for each RNG command, and `exec_keeps_source` for the other five. -/
theorem drawsOfEachCommand : Obligations.DrawsOfEachCommand := by
  intro s t i hwf h
  have hsame (hi : Instr.role i ≠ .rngClient) : t.source.drawn = s.source.drawn := by rw [exec_keeps_source h hi]
  cases i with
  | cfgsync value length => exact hsame nofun
  | dropsync => exact hsame nofun
  | ingest bit => exact hsame nofun
  | avail => exact hsame nofun
  | consume drop => exact hsame nofun
  | randmax max => exact exec_randmax_drawn h
  | randrange min max =>
    obtain ⟨hmin, hmax⟩ := Bool.and_eq_true_iff.mp hwf
    exact exec_randrange_drawn ((inS32_iff min).mp hmin).1 ((inS32_iff max).mp hmax).2 h
  | randbyte => exact exec_randbyte_drawn h

end Sys2Proof.Machine

/-! Streams of commands: a search started and ended (40_sync_control.md; 70_reset_and_hazards.md), bytes fed and
consumed in order (20_memory.md section 2), and the store filled to its last bit (41_bit_ingest.md R93). -/

namespace Sys2Proof.Machine

/-- A run of one step. -/
theorem run_one {s t : State} (h : step s = .next t) : Sys2Proof.core.run 1 s = .next t := run_succ 0 s t h

/-! ## A search started -/

/-- Settles O17: the two commands, one after the other. -/
theorem cfgsyncThenDropsyncStartsASearch : Obligations.CfgsyncThenDropsyncStartsASearch := by
  intro s a a' value length rest hlo hhi hin
  have hwf : (Instr.cfgsync value length).wf = true := decide_eq_true (by omega)
  have hcfgsync : step s = .next ((s.accept a _).succeed (s.block.configure value length) 0#32) :=
    (step_command s a _ _ _ hin (decode_encode hwf)).trans (exec_cfgsync_of_le _ value hhi)
  have hdropsync := step_command ((s.accept a _).succeed (s.block.configure value length) 0#32) a' _ rest .dropsync rfl
    (decode_encode rfl)
  have hpos : (s.block.configure value length).syncLength ≠ 0#6 := by
    rw [Ne, syncLength_zero, configure_syncLength, syncLength_ofNat_toNat hhi]
    omega
  have hsearch := dropSync_of_pos _ hpos
  refine ⟨⟨_, run_one hcfgsync, acquiredAfterConfigure_pos s.block length (by omega), rfl⟩, ?_⟩
  rw [run_succ 1 s _ hcfgsync, run_one (hdropsync.trans (exec_dropsync _))]
  refine congrArg (fun b => Host.Outcome.next (State.respond _ b .ok 0#32)) (hsearch.trans ?_)
  rfl

/-! ## A search without end -/

/-- A sync word with a 1 where the mask has a 0 matches no window (40_sync_control.md R84). -/
theorem seek_of_overwide {b : Block} {k : Nat} (bit : Bool) (hmask : b.syncMask = lowMask b.syncLength.toNat)
    (hk : b.syncLength.toNat ≤ k) (hword : b.syncWord.getLsbD k = true) :
    b.seek bit = { b with shiftRegister := shiftIn b.shiftRegister bit } := by
  refine seek_of_noMatch fun hmatch => ?_
  have hk32 : k < 32 := BitVec.lt_of_getLsbD hword
  have hzero : b.syncMask.getLsbD k = false := by
    rw [hmask, lowMask_getLsbD _ _ (by omega), decide_eq_false (by omega)]
  rw [← hmatch, BitVec.getLsbD_and, hzero, Bool.and_false] at hword
  cases hword

/-- Settles O18: bit by bit `seek_of_overwide`; the response is that of the last bit. -/
theorem overwideSyncWordNeverAcquires : Obligations.OverwideSyncWordNeverAcquires := by
  intro s bits rest k ha hmask hk hword hin
  induction bits generalizing s with
  | nil => exact ⟨s, rfl, hin, rfl, fun hne => absurd rfl hne⟩
  | cons bit bits ih =>
    have hstep := step_bit_seek s bit _ hin ha
    rw [seek_of_overwide bit hmask hk hword] at hstep
    obtain ⟨t, hrun, hrest, hblock, hrsp⟩ := ih ((s.accept .producer (bits.map Event.bit ++ rest)).succeed
      { s.block with shiftRegister := shiftIn s.block.shiftRegister bit } 0#32) ha hmask hk hword rfl
    refine ⟨t, (run_succ _ s _ hstep).trans hrun, hrest, hblock, fun _ => ?_⟩
    by_cases hlast : bits = []
    · subst hlast
      cases hrun
      rfl
    · exact hrsp hlast

/-! ## A search that ends -/

section SyncWord
variable {s : State} {length : Nat} {rest : List Event}
variable (hlength : length ≤ 32) (ha : s.block.acquired = false) (hwindow : s.block.shiftRegister = 0#32)
  (hmask : s.block.syncMask = lowMask length) (hword : s.block.syncWord.toNat < 2 ^ length)
  (hpos : 0 < s.block.syncWord.toNat)
  (hin : s.inputs = (bitsMsbFirst s.block.syncWord length).map Event.bit ++ rest)

include hlength in
/-- A part of the sync word that misses its last bits is smaller than the word, and does not match it. -/
theorem ushiftRight_and_lowMask_ne {w : Word} (hpos : 0 < w.toNat) {m : Nat} (hm : 0 < m) :
    w >>> m &&& lowMask length ≠ w := by
  intro heq
  have hnat := congrArg BitVec.toNat heq
  rw [and_lowMask_toNat _ _ hlength, BitVec.toNat_ushiftRight, Nat.shiftRight_eq_div_pow] at hnat
  have hdiv : w.toNat / 2 ^ m < w.toNat := Nat.div_lt_self hpos (Nat.one_lt_two_pow hm.ne')
  have hmod := Nat.mod_le (w.toNat / 2 ^ m) (2 ^ length)
  omega

include hlength ha hwindow hmask hword hpos hin

/-- The window after the first `j` bits of the sync word holds those bits, and has not matched (20_memory.md R53). -/
theorem run_syncWord_part {j : Nat} (hj : j < length) :
    ∃ t : State, Sys2Proof.core.run j s = .next t ∧
      t.inputs = ((bitsMsbFirst s.block.syncWord length).drop j).map Event.bit ++ rest ∧
      t.block = { s.block with shiftRegister := s.block.syncWord >>> (length - j) } := by
  induction j with
  | zero =>
    have hzero : s.block.syncWord >>> (length - 0) = s.block.shiftRegister := by
      rw [hwindow, ← BitVec.toNat_inj, BitVec.toNat_ushiftRight, Nat.shiftRight_eq_div_pow]
      exact Nat.div_eq_of_lt hword
    exact ⟨s, rfl, hin, by rw [hzero]⟩
  | succ j ih =>
    obtain ⟨t, hrun, hinputs, hblock⟩ := ih (by omega)
    rw [bitsMsbFirst_drop _ _ _ (by omega)] at hinputs
    have hstep := step_bit_seek t _ _ hinputs (by rw [hblock]; exact ha)
    refine ⟨_, run_concat j s t _ hrun hstep, rfl, ?_⟩
    have hshift := shiftIn_prefix s.block.syncWord length j (by omega)
    rw [succeed_block, hblock, seek_of_noMatch]
    · simp only [hshift]
    · dsimp only
      rw [hshift, hmask]
      exact ushiftRight_and_lowMask_ne hlength hpos (by omega)

/-- The last bit of the sync word acquires (41_bit_ingest.md R88, R89). -/
theorem run_syncWord (hlo : 1 ≤ length) :
    ∃ t : State, Sys2Proof.core.run length s = .next t ∧ t.inputs = rest ∧
      t.block = { s.block with
        shiftRegister := s.block.syncWord
        acquired := true
        writeCursor := 0
        readCursor := 0
        bitCursor := 0 } := by
  obtain ⟨n, rfl⟩ : ∃ n, length = n + 1 := ⟨length - 1, by omega⟩
  obtain ⟨t, hrun, hinputs, hblock⟩ :=
    run_syncWord_part hlength ha hwindow hmask hword hpos hin (Nat.lt_succ_self n)
  rw [bitsMsbFirst_drop _ _ _ (by omega), List.drop_eq_nil_of_le (by rw [bitsMsbFirst_length])] at hinputs
  have hstep := step_bit_seek t _ _ hinputs (by rw [hblock]; exact ha)
  refine ⟨_, run_concat n s t _ hrun hstep, rfl, ?_⟩
  have hshift := shiftIn_prefix s.block.syncWord (n + 1) n (by omega)
  rw [Nat.sub_self, BitVec.ushiftRight_zero] at hshift
  rw [succeed_block, hblock, seek_of_match]
  · simp only [hshift]
  · dsimp only
    rw [hshift, hmask, ← BitVec.toNat_inj, and_lowMask_toNat _ _ hlength, Nat.mod_eq_of_lt hword]

end SyncWord

/-- Settles O50: `run_syncWord_part` before the last bit, `run_syncWord` at it. -/
theorem theSyncWordAcquiresAtItsLastBit : Obligations.TheSyncWordAcquiresAtItsLastBit := by
  intro s length rest hlo hhi ha hwindow hmask hword htop hin
  have hpos : 0 < s.block.syncWord.toNat := by
    refine Nat.pos_of_ne_zero fun hzero => ?_
    rw [BitVec.getLsbD, hzero, Nat.zero_testBit] at htop
    cases htop
  refine ⟨fun k hk => ?_, run_syncWord hhi ha hwindow hmask hword hpos hin hlo⟩
  obtain ⟨t, hrun, -, hblock⟩ := run_syncWord_part hhi ha hwindow hmask hword hpos hin hk
  exact ⟨t, hrun, by rw [hblock]; exact ha⟩

/-! ## Bytes fed -/

/-- Which bit of the byte sent, most significant bit first, stands at bit `j` of the stored byte (00_scope.md R14;
41_bit_ingest.md R92). -/
def sentBit : Xform → Nat → Nat
  | .reverse8, j => j
  | .identity, j => 7 - j

section Feed
variable {s : State} {bs : List Byte} {rest : List Event}
variable (ha : s.block.acquired = true) (hbit : s.block.bitCursor = 0) (hwf : s.block.storage.wf = true)
  (hroom : s.block.writeCursor + bs.length ≤ s.cfg.capacity) (hin : s.inputs = Event.feedBytes bs ++ rest)
include ha hbit hwf hroom hin

/-- Bytes fed to a packing block are stored in order (20_memory.md R50, R51). -/
theorem run_feedBytes : ∃ t : State, Sys2Proof.core.run (8 * bs.length) s = .next t ∧ t.cfg = s.cfg ∧
    t.inputs = rest ∧
    t.block = { s.block with
      storage := t.block.storage, writeCursor := s.block.writeCursor + bs.length } ∧
    (∀ k (h : k < bs.length), ∀ j, j < 8 →
      (t.block.storage.read (s.block.writeCursor + k)).getLsbD j = bs[k].getLsbD (sentBit s.cfg.xform j)) ∧
    (∀ i, i < s.block.writeCursor ∨ s.block.writeCursor + bs.length ≤ i →
      t.block.storage.read i = s.block.storage.read i) := by
  induction bs generalizing s with
  | nil => exact ⟨s, rfl, rfl, hin, rfl, nofun, fun _ _ => rfl⟩
  | cons v vs ih =>
    rw [Event.feedBytes, List.append_assoc] at hin
    rw [List.length_cons] at hroom
    obtain ⟨u, hrunu, hcfgu, -, hinu, hblocku, hwfu, hothersu, hbitsu, -⟩ :=
      run_byte s v _ ha hbit hwf (by omega) hin
    have hwriteu : u.block.writeCursor = s.block.writeCursor + 1 := by rw [hblocku]
    obtain ⟨t, hrun, hcfg, hinputs, hblock, hbits, hothers⟩ := ih (s := u) (by rw [hblocku]; exact ha)
      (by rw [hblocku]; exact hbit) hwfu (by rw [hwriteu, hcfgu]; omega) hinu
    have hcount : s.block.writeCursor + 1 + vs.length = s.block.writeCursor + (vs.length + 1) := by omega
    refine ⟨t, ?_, hcfg.trans hcfgu, hinputs, ?_, fun k hk j hj => ?_, fun i hi => ?_⟩
    · rw [List.length_cons, Nat.mul_succ, Nat.add_comm, run_add 8 _ s u hrunu, hrun]
    · rw [hblock, hblocku, List.length_cons, ← hcount]
    · cases k with
      | zero =>
        rw [Nat.add_zero, hothers _ (.inl (by omega)), hbitsu j hj]
        cases s.cfg.xform <;> rfl
      | succ k =>
        have hindex : s.block.writeCursor + (k + 1) = u.block.writeCursor + k := by omega
        rw [hindex, hbits k (Nat.lt_of_succ_lt_succ hk) j hj, hcfgu]
        rfl
    · rw [List.length_cons] at hi
      rw [hothers i (by omega), hothersu i (by omega)]

/-- Every bit of bytes fed with room for them answers `OK` (41_bit_ingest.md R90, R92). -/
theorem run_feedBytes_ok {k : Nat} (hlo : 1 ≤ k) (hhi : k ≤ 8 * bs.length) :
    ∃ u : State, Sys2Proof.core.run k s = .next u ∧ u.rsp = some ⟨.ok, 0#32⟩ := by
  induction bs generalizing s k with
  | nil => exact absurd hhi (by simp; omega)
  | cons v vs ih =>
    rw [Event.feedBytes, List.append_assoc] at hin
    rw [List.length_cons] at hroom hhi
    rcases Nat.lt_or_ge k 8 with hlt | hge
    · obtain ⟨u, hrun, -, -, -, -, -, -, -, hrsp⟩ :=
        run_byte_prefix s v _ ha hbit hwf (by omega) hin k (by omega)
      exact ⟨u, hrun, hrsp hlo⟩
    · obtain ⟨u, hrunu, hcfgu, -, hinu, hblocku, hwfu, -, -, hrspu⟩ := run_byte s v _ ha hbit hwf (by omega) hin
      have hwriteu : u.block.writeCursor = s.block.writeCursor + 1 := by rw [hblocku]
      obtain ⟨n, rfl⟩ : ∃ n, k = 8 + n := ⟨k - 8, by omega⟩
      rw [run_add 8 n s u hrunu]
      rcases Nat.eq_zero_or_pos n with rfl | hpos
      · exact ⟨u, rfl, hrspu⟩
      · exact ih (s := u) (by rw [hblocku]; exact ha) (by rw [hblocku]; exact hbit) hwfu
          (by rw [hwriteu, hcfgu]; omega) hinu hpos (by omega)

/-- With `REVERSE8` each stored byte is the byte sent (41_bit_ingest.md R97). -/
theorem run_feedBytes_reverse8 (hxform : s.cfg.xform = .reverse8) :
    ∃ t : State, Sys2Proof.core.run (8 * bs.length) s = .next t ∧ t.cfg = s.cfg ∧ t.inputs = rest ∧
      t.block = { s.block with
        storage := t.block.storage, writeCursor := s.block.writeCursor + bs.length } ∧
      ∀ k (h : k < bs.length), t.block.storage.read (s.block.writeCursor + k) = bs[k] := by
  obtain ⟨t, hrun, hcfg, hinputs, hblock, hbits, -⟩ := run_feedBytes ha hbit hwf hroom hin
  refine ⟨t, hrun, hcfg, hinputs, hblock, fun k hk => BitVec.eq_of_getLsbD_eq fun j hj => ?_⟩
  rw [hbits k hk j hj, hxform, sentBit]

end Feed

/-- Settles O47: `run_feedBytes`. -/
theorem fedBytesAreStoredInOrder : Obligations.FedBytesAreStoredInOrder := by
  intro s bs rest ha hbit hwf hroom hin
  obtain ⟨t, hrun, -, hinputs, hblock, hbits, hothers⟩ := run_feedBytes ha hbit hwf hroom hin
  refine ⟨t, hrun, hinputs, hblock, fun k hk j hj => (hbits k hk j hj).trans ?_, hothers⟩
  cases s.cfg.xform <;> rfl

/-- Settles O49: the bytes that fill the store answer `OK`, and the bit after them finds it full and not drained. -/
theorem capacityTimesEightBitsFitAndTheNextOverflows : Obligations.CapacityTimesEightBitsFitAndTheNextOverflows := by
  intro s bs bit rest ha hwf hwrite hread hbit hcap hlength hin
  have hroom : s.block.writeCursor + bs.length ≤ s.cfg.capacity := by omega
  rw [← hlength]
  refine ⟨fun k => run_feedBytes_ok ha hbit hwf hroom hin, ?_⟩
  obtain ⟨t, hrun, hcfg, hinputs, hblock, -⟩ := run_feedBytes ha hbit hwf hroom hin
  have hwritet : t.block.writeCursor = bs.length := by rw [hblock, hwrite, Nat.zero_add]
  have hreadt : t.block.readCursor = 0 := by rw [hblock, hread]
  have hstep := step_bit_overflow t bit rest hinputs (by rw [hblock]; exact ha) (by rw [hwritet, hcfg, hlength])
    (by omega)
  exact ⟨t, _, hrun, run_concat _ s t _ hrun hstep, hwritet, rfl, rfl⟩

/-- Settles O54: the block after a RESET packs at index 0. -/
theorem eightBitsAfterResetMakeTheFirstByte : Obligations.EightBitsAfterResetMakeTheFirstByte := by
  intro s v rest hs hxform hin
  have hcap := one_le_capacity hs.cfgLegal
  obtain ⟨t, hrun, -, -, hblock, hbytes⟩ := run_feedBytes_reverse8 (s := s.performReset _) (bs := [v]) rfl rfl
    hs.blockInv.storageCanonical hcap rfl hxform
  refine ⟨t, (run_succ 8 s _ (step_reset s _ hin)).trans hrun, ?_, ?_⟩
  · have hfirst : t.block.storage.read 0 = v := hbytes 0 Nat.zero_lt_one
    rw [hblock]
    exact congrArg (fun b => [b]) hfirst
  · rw [hblock]
    exact ⟨rfl, rfl, rfl, rfl⟩

/-! ## Bytes consumed -/

/-- A CONSUME with drop 0, from the consumer. -/
def Event.consume : Event := .command .consumer (encode (.consume false))

/-- Consumed one after the other, the unread bytes come out in their order (42_consumer.md R99). -/
theorem run_consumes {s : State} {n k : Nat} {rest : List Event}
    (hunread : s.block.readCursor + n ≤ s.block.writeCursor) (hcap : s.block.writeCursor ≤ s.cfg.capacity)
    (hin : s.inputs = List.replicate n Event.consume ++ rest) (hk : k < n) : ∃ t : State, Sys2Proof.core.run (k + 1) s = .next t ∧
      t.rsp = some ⟨.ok, (s.block.storage.read (s.block.readCursor + k)).setWidth 32⟩ ∧ t.sender = some .consumer := by
  induction n generalizing s k with
  | zero => exact absurd hk (Nat.not_lt_zero k)
  | succ n ih =>
    rw [List.replicate_succ, List.cons_append] at hin
    have hstep := (step_command s .consumer _ _ _ hin (decode_encode rfl)).trans
      (execConsume_of_lt false (s.accept .consumer _) (by rw [accept_block]; omega)
        (by rw [accept_block, accept_cfg]; omega))
    cases k with
    | zero => exact ⟨_, run_one hstep, rfl, rfl⟩
    | succ k =>
      have hindex : s.block.readCursor + (k + 1) = s.block.readCursor + 1 + k := by omega
      have hunread' : s.block.readCursor + 1 + n ≤ s.block.writeCursor := by omega
      rw [run_succ _ _ _ hstep, hindex]
      exact ih hunread' hcap rfl (by omega)

/-- Settles O48: the bytes are stored by `run_feedBytes_reverse8` and come out by `run_consumes`. -/
theorem theConsumerReadsWhatTheProducerSent : Obligations.TheConsumerReadsWhatTheProducerSent := by
  intro s bs rest hxform ha hwf hwrite hread hbit hroom hin k hk
  obtain ⟨u, hrunu, hcfgu, hinu, hblocku, hbytes⟩ := run_feedBytes_reverse8 ha hbit hwf (by omega) hin hxform
  have hwriteu : u.block.writeCursor = bs.length := by rw [hblocku, hwrite, Nat.zero_add]
  have hreadu : u.block.readCursor = 0 := by rw [hblocku, hread]
  obtain ⟨t, hrun, hrsp, hsender⟩ := run_consumes (by omega) (by rw [hcfgu]; omega) hinu hk
  refine ⟨t, (run_add _ _ s u hrunu).trans hrun, hrsp.trans ?_, hsender⟩
  rw [hreadu, ← hwrite, hbytes k hk]

end Sys2Proof.Machine
